-- ==== Sys2Proof/Word.lean ====
section
/-! DEFINITION. The plain value types: bytes, half words, words, register numbers and memory sections. -/

namespace Sys2Proof

/-- One byte (`u8` of spec/00_scope.md). -/
abbrev Byte := BitVec 8

/-- A 16-bit instruction field (spec/30_encoding.md R101). -/
abbrev Half := BitVec 16

/-- A register's 32-bit pattern; `toInt` is its `i32` value (spec/10_state.md R21, spec/00_scope.md R6). -/
abbrev Word := BitVec 32

/-- A register number 0..34 (spec/10_state.md R21). A byte of 35 or more names no register (R27) and is
refused when the operand is decoded. -/
abbrev Reg := Fin 35

/-- The section tag of an `Address` operand: 0 is the stack, 1 the heap (spec/20_memory.md R51). -/
inductive Section
  | stack
  | heap
deriving DecidableEq, Repr

end Sys2Proof
end

