-- ==== Sys2Proof/Config.lean ====
section
/-! DEFINITION. The implementation parameters of spec/00_scope.md R4, as plain data. -/

namespace Sys2Proof

/-- The 31 mnemonics in the order of spec/30_encoding.md R112: the domain of `P_OPCODE` (R111). -/
inductive Mnemonic
  | load
  | add | sub | mul | div
  | eq | neq | gt | lt | gtq | ltq
  | jmp | jmpf | jmpb | jeq | jez | rjmp | call | ret
  | sw | lw | sb | lb
  | not | shiftl | shiftr | and | or
  | sysc
  | push | pop
deriving DecidableEq, Repr

/-- `P_OVERFLOW`: what a 32-bit result outside `i32` becomes (spec/41_arithmetic.md R150). -/
inductive OverflowRule
  | wrap
  | fault
deriving DecidableEq, Repr

/-- `P_SHIFTR`: the kind of right shift (spec/45_bitwise.md R252). -/
inductive ShiftKind
  | arithmetic
  | logical
deriving DecidableEq, Repr

/-- `P_SYSCODE`: the numeric code of each syscall, a register value (spec/46_syscall.md R270). -/
structure SysCodes where
  nop : Word
  cprint : Word
  exit : Word
  alloc : Word
  free : Word
  printString : Word
deriving DecidableEq, Repr

/-- The OPEN parameters of spec/00_scope.md R4. A machine carries one value of this type in its state
(DESIGN CHOICE, log entry 1), so a statement about every state is a statement about every choice of
the parameters. -/
structure Params where
  /-- `P_OPCODE`: the opcode byte of each mnemonic, in the order of R112. -/
  opcodes : Vector Byte 31
  /-- `P_SYSCODE` -/
  syscodes : SysCodes
  /-- `P_MAGIC`: the four magic bytes, lowest address first. -/
  magic : Vector Byte 4
  /-- `P_HEAP_ALIGN` -/
  heapAlign : Nat
  /-- `P_OVERFLOW` -/
  overflow : OverflowRule
  /-- `P_SHIFTR` -/
  shiftr : ShiftKind
  /-- `P_MEM_LIMIT`: the largest length of the stack and of the heap buffer. -/
  memLimit : Nat
  /-- `P_PRINT_TERMINATOR`: the bytes emitted after each printed string. -/
  printTerminator : List Byte
deriving DecidableEq, Repr

/-- The reference opcode bytes 0x01 to 0x1F of spec/30_encoding.md R112. -/
def referenceOpcodes : Vector Byte 31 :=
  #v[0x01, 0x02, 0x03, 0x04, 0x05, 0x06, 0x07, 0x08, 0x09, 0x0A, 0x0B,
    0x0C, 0x0D, 0x0E, 0x0F, 0x10, 0x11, 0x12, 0x13, 0x14, 0x15, 0x16, 0x17,
    0x18, 0x19, 0x1A, 0x1B, 0x1C, 0x1D, 0x1E, 0x1F]

/-- The reference syscall codes of spec/46_syscall.md R270. -/
def referenceSyscodes : SysCodes :=
  { nop := 0, cprint := 1, exit := 2, alloc := 3, free := 4, printString := 5 }

/-- The reference values of spec/00_scope.md R4 (the spec's own choice, used by its test vectors). -/
def Params.reference : Params :=
  { opcodes := referenceOpcodes
    syscodes := referenceSyscodes
    magic := #v[0x53, 0x4C, 0x4E, 0x47]
    heapAlign := 8
    overflow := .fault
    shiftr := .arithmetic
    memLimit := 2147483647
    printTerminator := [] }

end Sys2Proof
end

