-- ==== Sys2Proof/Syntax.lean ====
section
/-! DEFINITION. The instruction set as syntax: one constructor per row of spec/opcode_table.json. -/

namespace Sys2Proof

/-- The 31 instructions of spec/30_encoding.md R110, with the operands of R102. Register operands and the
section tag are already checked values (R121, R122); 16-bit fields are kept as bits and read as
unsigned targets or signed deltas where they are used (R101). -/
inductive Instr
  | load (rd : Reg) (imm : Half)
  | add (ra rb rd : Reg)
  | sub (ra rb rd : Reg)
  | mul (ra rb rd : Reg)
  | div (ra rb rd : Reg)
  | eq (ra rb : Reg)
  | neq (ra rb : Reg)
  | gt (ra rb : Reg)
  | lt (ra rb : Reg)
  | gtq (ra rb : Reg)
  | ltq (ra rb : Reg)
  | jmp (t : Half)
  | jmpf (d : Half)
  | jmpb (d : Half)
  | jeq (t : Half)
  | jez (r : Reg) (t : Half)
  | rjmp (r : Reg)
  | call (t : Half)
  | ret
  | sw (r ra : Reg) (off : Byte) (sec : Section)
  | lw (r ra : Reg) (off : Byte) (sec : Section)
  | sb (r ra : Reg) (off : Byte) (sec : Section)
  | lb (r ra : Reg) (off : Byte) (sec : Section)
  | not (r : Reg)
  | shiftl (ra rb : Reg)
  | shiftr (ra rb : Reg)
  | and (ra rb : Reg)
  | or (ra rb : Reg)
  | sysc
  | push (r : Reg)
  | pop (r : Reg)
deriving DecidableEq, Repr

end Sys2Proof
end

