-- ==== Sys2Proof/WellFormed.lean ====
section
/-! DEFINITION. What well-formed parameters are. A term of `Instr` needs no check of its own: its register
numbers are below 35 and its section is one of two by their types (log entry 6), and every value of the
other fields is legal (spec/30_encoding.md R114). The checks on raw operand bytes (R121, R122) are in
Sys2Proof/Decode.lean. -/

namespace Sys2Proof

/-- The opcode assignment is injective (spec/30_encoding.md R111). -/
abbrev Params.opcodesDistinct (p : Params) : Prop := p.opcodes.toList.Nodup

/-- The six codes as a list, in the order of spec/46_syscall.md R270. -/
def SysCodes.toList (c : SysCodes) : List Word :=
  [c.nop, c.cprint, c.exit, c.alloc, c.free, c.printString]

/-- The syscall codes are distinct (spec/46_syscall.md R270). -/
abbrev Params.syscodesDistinct (p : Params) : Prop := p.syscodes.toList.Nodup

/-- `P_HEAP_ALIGN` is 4 or 8 (spec/00_scope.md R4). -/
abbrev Params.heapAlignAllowed (p : Params) : Prop := p.heapAlign = 4 ∨ p.heapAlign = 8

/-- `P_MEM_LIMIT` is at most 2^31 - 1 (spec/00_scope.md R4). -/
abbrev Params.memLimitAllowed (p : Params) : Prop := p.memLimit ≤ 2147483647

/-- The conditions spec/00_scope.md R4, R111 and R270 put on the parameters. -/
abbrev Params.WellFormed (p : Params) : Prop :=
  p.opcodesDistinct ∧ p.syscodesDistinct ∧ p.heapAlignAllowed ∧ p.memLimitAllowed

end Sys2Proof
end

