-- ==== Sys2Proof/Decode.lean ====
section
/-! DEFINITION. Decoding and encoding of instructions (spec/30_encoding.md), over any opcode assignment. -/

namespace Sys2Proof

/-! ### Formats and the opcode map -/

/-- The instruction formats of spec/30_encoding.md R102. -/
inductive Format
  | n | r | rr | rrr | ri | t | d | rt | rm
deriving DecidableEq, Repr

/-- The total width of a format in bytes, opcode byte included (spec/30_encoding.md R102). -/
def Format.width : Format → Nat
  | .n => 1
  | .r => 2
  | .rr => 3
  | .rrr => 4
  | .ri => 4
  | .t => 3
  | .d => 3
  | .rt => 4
  | .rm => 5

/-- The format of each opcode (spec/30_encoding.md R102, R112). -/
def Mnemonic.format : Mnemonic → Format
  | .load => .ri
  | .add => .rrr
  | .sub => .rrr
  | .mul => .rrr
  | .div => .rrr
  | .eq => .rr
  | .neq => .rr
  | .gt => .rr
  | .lt => .rr
  | .gtq => .rr
  | .ltq => .rr
  | .jmp => .t
  | .jmpf => .d
  | .jmpb => .d
  | .jeq => .t
  | .jez => .rt
  | .rjmp => .r
  | .call => .t
  | .ret => .n
  | .sw => .rm
  | .lw => .rm
  | .sb => .rm
  | .lb => .rm
  | .not => .r
  | .shiftl => .rr
  | .shiftr => .rr
  | .and => .rr
  | .or => .rr
  | .sysc => .n
  | .push => .r
  | .pop => .r

/-- The total width of an opcode's instruction: it depends on the opcode alone (spec/30_encoding.md R100). -/
def Mnemonic.width (m : Mnemonic) : Nat := m.format.width

/-- The place of each mnemonic in the order of spec/30_encoding.md R112. -/
def Mnemonic.index : Mnemonic → Fin 31
  | .load => 0
  | .add => 1
  | .sub => 2
  | .mul => 3
  | .div => 4
  | .eq => 5
  | .neq => 6
  | .gt => 7
  | .lt => 8
  | .gtq => 9
  | .ltq => 10
  | .jmp => 11
  | .jmpf => 12
  | .jmpb => 13
  | .jeq => 14
  | .jez => 15
  | .rjmp => 16
  | .call => 17
  | .ret => 18
  | .sw => 19
  | .lw => 20
  | .sb => 21
  | .lb => 22
  | .not => 23
  | .shiftl => 24
  | .shiftr => 25
  | .and => 26
  | .or => 27
  | .sysc => 28
  | .push => 29
  | .pop => 30

/-- All mnemonics, in the order of spec/30_encoding.md R112. -/
def Mnemonic.all : List Mnemonic :=
  [.load, .add, .sub, .mul, .div, .eq, .neq, .gt, .lt, .gtq, .ltq] ++
    [.jmp, .jmpf, .jmpb, .jeq, .jez, .rjmp, .call, .ret, .sw, .lw, .sb, .lb] ++
    [.not, .shiftl, .shiftr, .and, .or, .sysc, .push, .pop]

/-- `P_OPCODE` (spec/30_encoding.md R111). -/
def Params.opcode (p : Params) (m : Mnemonic) : Byte := p.opcodes[m.index]

/-- The mnemonic an opcode byte stands for; `none` is `Illegal` (spec/30_encoding.md R110, R111). -/
def Params.mnemonicOf (p : Params) (b : Byte) : Option Mnemonic :=
  Mnemonic.all.find? fun m => p.opcode m == b

/-- The mnemonic of an instruction. -/
def Instr.mnemonic : Instr → Mnemonic
  | .load _ _ => .load
  | .add _ _ _ => .add
  | .sub _ _ _ => .sub
  | .mul _ _ _ => .mul
  | .div _ _ _ => .div
  | .eq _ _ => .eq
  | .neq _ _ => .neq
  | .gt _ _ => .gt
  | .lt _ _ => .lt
  | .gtq _ _ => .gtq
  | .ltq _ _ => .ltq
  | .jmp _ => .jmp
  | .jmpf _ => .jmpf
  | .jmpb _ => .jmpb
  | .jeq _ => .jeq
  | .jez _ _ => .jez
  | .rjmp _ => .rjmp
  | .call _ => .call
  | .ret => .ret
  | .sw _ _ _ _ => .sw
  | .lw _ _ _ _ => .lw
  | .sb _ _ _ _ => .sb
  | .lb _ _ _ _ => .lb
  | .not _ => .not
  | .shiftl _ _ => .shiftl
  | .shiftr _ _ => .shiftr
  | .and _ _ => .and
  | .or _ _ => .or
  | .sysc => .sysc
  | .push _ => .push
  | .pop _ => .pop

/-- The total width of an instruction in bytes (spec/30_encoding.md R102). -/
def Instr.width (i : Instr) : Nat := i.mnemonic.width

/-! ### Decoding -/

/-- Why bytes are no instruction. -/
inductive DecodeError
  /-- There is no byte at all (the step never asks for this: log entry 15). -/
  | noBytes
  /-- The first byte is not an opcode (R120). -/
  | illegalOpcode (op : Byte)
  /-- Fewer bytes are left than the opcode's width (R120). -/
  | truncated (op : Byte)
  /-- A register field of 35 or more (R121). -/
  | badRegister (b : Byte)
  /-- A section field of 2 or more (R122). -/
  | badSection (b : Byte)
deriving DecidableEq, Repr

/-- The byte `I[k]` of an instruction (spec/00_scope.md, notation). -/
def byteField (I : List Byte) (k : Nat) : Byte := I.getD k 0#8

/-- `be16(I[k], I[k+1])`: the high byte first (spec/20_memory.md R54). -/
def be16Field (I : List Byte) (k : Nat) : Half := byteField I k ++ byteField I (k + 1)

/-- The register a field byte names (spec/30_encoding.md R121). -/
def Reg.ofByte (b : Byte) : Except DecodeError Reg :=
  if h : b.toNat < 35 then .ok ⟨b.toNat, h⟩ else .error (.badRegister b)

/-- The section a field byte names (spec/30_encoding.md R122). -/
def Section.ofByte (b : Byte) : Except DecodeError Section :=
  if b = 0#8 then .ok .stack else if b = 1#8 then .ok .heap else .error (.badSection b)

/-- The register field at byte `k`. -/
def regField (I : List Byte) (k : Nat) : Except DecodeError Reg := Reg.ofByte (byteField I k)

/-- The section field at byte `k`. -/
def sectionField (I : List Byte) (k : Nat) : Except DecodeError Section := Section.ofByte (byteField I k)

/-- Format `R`: one register at byte 1 (spec/30_encoding.md R102). -/
def fieldsR (I : List Byte) (mk : Reg → Instr) : Except DecodeError Instr := do
  let r ← regField I 1
  .ok (mk r)

/-- Format `RR`: registers at bytes 1 and 2 (spec/30_encoding.md R102). -/
def fieldsRR (I : List Byte) (mk : Reg → Reg → Instr) : Except DecodeError Instr := do
  let ra ← regField I 1
  let rb ← regField I 2
  .ok (mk ra rb)

/-- Format `RRR`: registers at bytes 1, 2 and 3 (spec/30_encoding.md R102). -/
def fieldsRRR (I : List Byte) (mk : Reg → Reg → Reg → Instr) : Except DecodeError Instr := do
  let ra ← regField I 1
  let rb ← regField I 2
  let rd ← regField I 3
  .ok (mk ra rb rd)

/-- Formats `RI` and `RT`: a register at byte 1 and 16 bits at bytes 2 and 3 (spec/30_encoding.md R102). -/
def fieldsRH (I : List Byte) (mk : Reg → Half → Instr) : Except DecodeError Instr := do
  let r ← regField I 1
  .ok (mk r (be16Field I 2))

/-- Format `RM`: a register, then the `Address` operand base, offset, section, checked by increasing
byte position (spec/30_encoding.md R102, R120). -/
def fieldsRM (I : List Byte) (mk : Reg → Reg → Byte → Section → Instr) : Except DecodeError Instr := do
  let r ← regField I 1
  let ra ← regField I 2
  let sec ← sectionField I 4
  .ok (mk r ra (byteField I 3) sec)

/-- The operand fields of each opcode from the instruction's bytes, `I[0]` the opcode byte, each checked
by increasing byte position (spec/30_encoding.md R102, R120). -/
def decodeFields (I : List Byte) : Mnemonic → Except DecodeError Instr
  | .load => fieldsRH I .load
  | .add => fieldsRRR I .add
  | .sub => fieldsRRR I .sub
  | .mul => fieldsRRR I .mul
  | .div => fieldsRRR I .div
  | .eq => fieldsRR I .eq
  | .neq => fieldsRR I .neq
  | .gt => fieldsRR I .gt
  | .lt => fieldsRR I .lt
  | .gtq => fieldsRR I .gtq
  | .ltq => fieldsRR I .ltq
  | .jmp => .ok (.jmp (be16Field I 1))
  | .jmpf => .ok (.jmpf (be16Field I 1))
  | .jmpb => .ok (.jmpb (be16Field I 1))
  | .jeq => .ok (.jeq (be16Field I 1))
  | .jez => fieldsRH I .jez
  | .rjmp => fieldsR I .rjmp
  | .call => .ok (.call (be16Field I 1))
  | .ret => .ok .ret
  | .sw => fieldsRM I .sw
  | .lw => fieldsRM I .lw
  | .sb => fieldsRM I .sb
  | .lb => fieldsRM I .lb
  | .not => fieldsR I .not
  | .shiftl => fieldsRR I .shiftl
  | .shiftr => fieldsRR I .shiftr
  | .and => fieldsRR I .and
  | .or => fieldsRR I .or
  | .sysc => .ok .sysc
  | .push => fieldsR I .push
  | .pop => fieldsR I .pop

/-- Decode of the first instruction of `bs`, with the bytes after it (spec/30_encoding.md R120): the opcode
byte, then the length, then the operand fields. -/
def decode (p : Params) (bs : List Byte) : Except DecodeError (Instr × List Byte) :=
  match bs with
  | [] => .error .noBytes
  | op :: _ =>
    match p.mnemonicOf op with
    | none => .error (.illegalOpcode op)
    | some m =>
      if bs.length < m.width then .error (.truncated op)
      else
        match decodeFields bs m with
        | .error e => .error e
        | .ok i => .ok (i, bs.drop m.width)

/-! ### Encoding -/

/-- The byte of a register field (spec/30_encoding.md R101). -/
def Reg.toByte (r : Reg) : Byte := BitVec.ofNat 8 r.val

/-- The byte of a section field (spec/20_memory.md R51). -/
def Section.toByte : Section → Byte
  | .stack => 0#8
  | .heap => 1#8

/-- A 16-bit field as two bytes, high byte first (spec/20_memory.md R54). -/
def halfBytes (h : Half) : List Byte := [h.extractLsb' 8 8, h.extractLsb' 0 8]

/-- The operand bytes of an instruction, in the byte order of spec/30_encoding.md R102. -/
def Instr.operandBytes : Instr → List Byte
  | .load rd imm => Reg.toByte rd :: halfBytes imm
  | .add ra rb rd => [Reg.toByte ra, Reg.toByte rb, Reg.toByte rd]
  | .sub ra rb rd => [Reg.toByte ra, Reg.toByte rb, Reg.toByte rd]
  | .mul ra rb rd => [Reg.toByte ra, Reg.toByte rb, Reg.toByte rd]
  | .div ra rb rd => [Reg.toByte ra, Reg.toByte rb, Reg.toByte rd]
  | .eq ra rb => [Reg.toByte ra, Reg.toByte rb]
  | .neq ra rb => [Reg.toByte ra, Reg.toByte rb]
  | .gt ra rb => [Reg.toByte ra, Reg.toByte rb]
  | .lt ra rb => [Reg.toByte ra, Reg.toByte rb]
  | .gtq ra rb => [Reg.toByte ra, Reg.toByte rb]
  | .ltq ra rb => [Reg.toByte ra, Reg.toByte rb]
  | .jmp t => halfBytes t
  | .jmpf d => halfBytes d
  | .jmpb d => halfBytes d
  | .jeq t => halfBytes t
  | .jez r t => Reg.toByte r :: halfBytes t
  | .rjmp r => [Reg.toByte r]
  | .call t => halfBytes t
  | .ret => []
  | .sw r ra off sec => [Reg.toByte r, Reg.toByte ra, off, sec.toByte]
  | .lw r ra off sec => [Reg.toByte r, Reg.toByte ra, off, sec.toByte]
  | .sb r ra off sec => [Reg.toByte r, Reg.toByte ra, off, sec.toByte]
  | .lb r ra off sec => [Reg.toByte r, Reg.toByte ra, off, sec.toByte]
  | .not r => [Reg.toByte r]
  | .shiftl ra rb => [Reg.toByte ra, Reg.toByte rb]
  | .shiftr ra rb => [Reg.toByte ra, Reg.toByte rb]
  | .and ra rb => [Reg.toByte ra, Reg.toByte rb]
  | .or ra rb => [Reg.toByte ra, Reg.toByte rb]
  | .sysc => []
  | .push r => [Reg.toByte r]
  | .pop r => [Reg.toByte r]

/-- The bytes of an instruction (spec/30_encoding.md R102). -/
def encode (p : Params) (i : Instr) : List Byte := p.opcode i.mnemonic :: i.operandBytes

/-! ### Words of spec/opcode_table.json -/

/-- The number of bytes of the longest instruction (spec/30_encoding.md R102, format `RM`). -/
def longestWidth : Nat := 5

/-- The bytes of an instruction whose first `nbits` bits are `w`, bit 0 the least significant bit of the
first byte, every further bit up to the longest instruction 0. -/
def tableBytes (nbits w : Nat) : List Byte :=
  (List.range longestWidth).map fun k => BitVec.ofNat 8 ((w % 2 ^ nbits) >>> (8 * k))

/-- What the decoder reads, under the reference opcode bytes of spec/30_encoding.md R112, from an
instruction given as the number of spec/opcode_table.json. -/
def decodeTableWord (nbits w : Nat) : Option Instr :=
  match decode Params.reference (tableBytes nbits w) with
  | .ok (i, _) => some i
  | .error _ => none

end Sys2Proof
end

