-- ==== Sys2Proof/Machine/State.lean ====
section
/-! DEFINITION. The machine's state (spec/10_state.md), its faults, and its reset state. -/

namespace Sys2Proof.Machine

/-- The data space a fault names: the stack section, the heap section or the read-only block
(spec/60_exceptions.md R301). -/
inductive Space
  | stack
  | heap
  | readOnly
deriving DecidableEq, Repr

/-- The faults of spec/60_exceptions.md R301, each with the information it records beside the offset of the
faulting instruction. A fault is a NEXT state whose status is `faulted` (R302), so `Host.Outcome.fault` is
never answered (log entry 2). Following the spec's fault is safe: nothing is claimed past it. -/
inductive Fault
  /-- Code 1. Raised by a fetch whose opcode byte is no opcode (spec/30_encoding.md R120). Safe. -/
  | illegalOpcode (op : Byte)
  /-- Code 2. Raised by a fetch whose instruction is cut off by the end of the stream (R120). Safe. -/
  | truncatedInstruction (op : Byte) (pc len : Nat)
  /-- Code 3. Raised by a fetch with a register field of 35 or more (R121). Safe. -/
  | invalidRegister (b : Byte)
  /-- Code 4. Raised by a fetch with a section field of 2 or more (R122). Safe. -/
  | invalidSection (b : Byte)
  /-- Code 5. Raised by a fetch past the end of the stream (R131), by a negative target of JMPF, JMPB, RJMP
  or RET, and by a return address CALL cannot push (spec/43_control.md). Safe. -/
  | pcOutOfRange (v : Int)
  /-- Code 6. Raised by DIV with divisor 0 (spec/41_arithmetic.md R155). Safe. -/
  | divideByZero
  /-- Code 7. Raised by DIV of -2^31 by -1 (R155). Safe. -/
  | divideOverflow
  /-- Code 8. Raised, under `P_OVERFLOW = fault`, by ADD, SUB, MUL and by the SP updates of CALL, RET, PUSH
  and POP (R150). Safe. -/
  | arithmeticOverflow (v : Int)
  /-- Code 9. Raised by LW, LB, SW, SB out of bounds (spec/20_memory.md R56, R57) and by the print syscalls'
  start offset (spec/46_syscall.md R272). Safe. -/
  | addressOutOfRange (space : Space) (a : Int) (n : Nat)
  /-- Code 10. Raised by SW and SB into the stack, PUSH, CALL and Alloc past `P_MEM_LIMIT`. Safe. -/
  | resourceExhausted (space : Space) (len : Nat)
  /-- Code 11. Raised by Alloc of a size of 0 or less (spec/20_memory.md R74). Safe. -/
  | invalidAllocSize (n : Int)
  /-- Code 12. Raised by Free of a pointer no block starts at (R79). Safe. -/
  | invalidFree (p : Int)
  /-- Code 13. Raised by Free of a block that is free (R79). Safe. -/
  | doubleFree (p : Int)
  /-- Code 14. Raised by the print syscalls when no NUL follows (spec/46_syscall.md R272). Safe. -/
  | unterminatedString (space : Space) (o : Int)
  /-- Code 15. Raised by the print syscalls on bytes that are not UTF-8 (R272). Safe. -/
  | invalidUtf8 (space : Space) (o : Int)
  /-- Code 16. Raised by SYSC with a code of no syscall (R279). Safe. -/
  | unknownSyscall (code : Int)
deriving DecidableEq, Repr

/-- Why the model has no meaning for an instruction. -/
inductive Refusal
  /-- Raised by an arm of `exec` without a meaning; no arm is one, so it is never answered. Safe. -/
  | notModelled (mnemonic : String)
deriving DecidableEq, Repr

/-- The two normal ends of a program (spec/60_exceptions.md R303). -/
inductive HaltCause
  | endOfStream
  | exit
deriving DecidableEq, Repr

/-- The execution status (spec/10_state.md R32); a fault records its cause and the offset of the
instruction that raised it. -/
inductive Status
  | running
  | halted (cause : HaltCause)
  | faulted (cause : Fault) (offset : Nat)
deriving DecidableEq, Repr

/-- A byte sequence of spec/20_memory.md R50 as its length and the bytes that are not 0, by rising
address. A byte below the length that is not listed is 0, the value buffers are extended with (R66,
R77; log entry 4). -/
structure Memory where
  size : Nat
  cells : List Host.Cell
deriving DecidableEq, Repr

/-- The canonical form: addresses strictly rising and below the length, no listed byte 0. -/
abbrev Memory.wf (m : Memory) : Prop :=
  m.cells.Pairwise (fun c d => c.1 < d.1) ∧ ∀ c ∈ m.cells, c.1 < m.size ∧ c.2 ≠ 0#8

/-- The empty byte sequence. -/
def Memory.empty : Memory := { size := 0, cells := [] }

/-- A heap block (spec/20_memory.md R70). -/
structure Block where
  start : Nat
  size : Nat
  isFree : Bool
deriving DecidableEq, Repr

/-- The heap unit's state: the ordered block list and the heap buffer (spec/20_memory.md R70). -/
structure Heap where
  blocks : List Block
  hbuf : Memory
deriving DecidableEq, Repr

/-- The state tuple of spec/10_state.md R20, and the parameters of spec/00_scope.md R4 the machine was
made with (log entry 1). -/
structure State where
  /-- The model's own field: no step writes it. -/
  params : Params
  /-- The 35 registers (R21). -/
  x : Vector Word 35
  /-- The program counter (R28). -/
  pc : Nat
  /-- The equal flag (R30). -/
  eqf : Bool
  /-- The remainder field (R31). -/
  rem : Word
  /-- The execution status (R32). -/
  status : Status
  /-- The instruction stream (R34). -/
  prog : Memory
  /-- The read-only block (R34). -/
  ro : Memory
  /-- The stack unit's buffer (R35). -/
  stack : Memory
  /-- The heap unit (R35). -/
  heap : Heap
  /-- The output port's history (R33). -/
  out : List Byte
deriving DecidableEq, Repr

/-- The state `VM::new` creates (spec/10_state.md R37, spec/70_reset_and_hazards.md R340), for a machine
with parameters `p`. -/
def State.initial (p : Params) : State :=
  { params := p
    x := Vector.replicate 35 0#32
    pc := 0
    eqf := false
    rem := 0#32
    status := .running
    prog := Memory.empty
    ro := Memory.empty
    stack := Memory.empty
    heap := { blocks := [], hbuf := Memory.empty }
    out := [] }

/-- The machine right after reset (spec/70_reset_and_hazards.md R340), with the reference parameters of
spec/00_scope.md R4 (DESIGN CHOICE, log entry 1). -/
def State.reset : State := State.initial Params.reference

end Sys2Proof.Machine
end

