-- ==== Sys2Proof/Machine/Memory.lean ====
section
/-! DEFINITION. Byte sequences: reading, writing, growing and truncating (spec/20_memory.md). -/

namespace Sys2Proof.Machine

/-- The byte listed at an address, 0 where none is. -/
def cellAt : List Host.Cell → Nat → Byte
  | [], _ => 0#8
  | (k, b) :: cs, a => if k = a then b else cellAt cs a

/-- The cells with the byte at `a` made `b`, kept in the canonical form: a 0 is not listed. -/
def putCell : List Host.Cell → Nat → Byte → List Host.Cell
  | [], a, b => if b = 0#8 then [] else [(a, b)]
  | (k, c) :: cs, a, b =>
    if a < k then (if b = 0#8 then (k, c) :: cs else (a, b) :: (k, c) :: cs)
    else if a = k then (if b = 0#8 then cs else (a, b) :: cs)
    else (k, c) :: putCell cs a b

/-- The byte at an address; 0 where nothing is listed. Reads check bounds before they use it. -/
def Memory.byte (m : Memory) (a : Nat) : Byte := cellAt m.cells a

/-- The byte at an address, none past the end of the sequence. -/
def Memory.byte? (m : Memory) (a : Nat) : Option Byte := if a < m.size then some (m.byte a) else none

/-- The `n` bytes from address `a` on, in increasing address order. -/
def Memory.readBytes (m : Memory) (a n : Nat) : List Byte := (List.range n).map fun k => m.byte (a + k)

/-- The whole sequence as a list. -/
def Memory.toBytes (m : Memory) : List Byte := m.readBytes 0 m.size

/-- One byte written inside the sequence. -/
def Memory.put (m : Memory) (a : Nat) (b : Byte) : Memory := { m with cells := putCell m.cells a b }

/-- Bytes written from address `a` on; the length does not change. -/
def Memory.writeBytes : Memory → Nat → List Byte → Memory
  | m, _, [] => m
  | m, a, b :: bs => Memory.writeBytes (m.put a b) (a + 1) bs

/-- The sequence extended with zeros to length `n`; never shortened (spec/20_memory.md R66). -/
def Memory.grow (m : Memory) (n : Nat) : Memory := { m with size := max m.size n }

/-- The sequence cut to its first `n` bytes. -/
def Memory.truncate (m : Memory) (n : Nat) : Memory :=
  { size := min m.size n, cells := m.cells.filter fun c => decide (c.1 < n) }

/-- Bytes appended at the end. -/
def Memory.append (m : Memory) (bs : List Byte) : Memory :=
  (m.grow (m.size + bs.length)).writeBytes m.size bs

/-- A byte sequence from a list. -/
def Memory.ofBytes (bs : List Byte) : Memory := Memory.empty.append bs

end Sys2Proof.Machine
end

