-- ==== Sys2Proof/Machine/Operands.lean ====
section
/-! DEFINITION. Operands: registers, immediates, effective addresses, words as bytes, and the narrowing of
exact results to 32 bits. -/

namespace Sys2Proof.Machine

/-! ### Registers (spec/10_state.md R21 to R26) -/

/-- Register 0, the argument of the syscalls that take one (R22). -/
def argReg : Reg := 0

/-- The syscall register (R23). -/
def sysReg : Reg := 32

/-- The stack pointer SP (R24). -/
def spReg : Reg := 33

/-- The frame base pointer BP (R25). -/
def bpReg : Reg := 34

/-- A register's pattern; no register is hardwired (R26). -/
def State.reg (s : State) (r : Reg) : Word := s.x[r]

/-- A register's `i32` value (spec/00_scope.md R6). -/
def State.int (s : State) (r : Reg) : Int := (s.reg r).toInt

/-- A register written. -/
def State.setReg (s : State) (r : Reg) (v : Word) : State := { s with x := s.x.set r.val v r.isLt }

/-! ### Immediates and addresses -/

/-- `zext_16` of an immediate as a register value (spec/40_load.md R141). -/
def zext16 (h : Half) : Word := h.setWidth 32

/-- `zext_8` of a byte as a register value (spec/44_memory_ops.md R223). -/
def zext8 (b : Byte) : Word := b.setWidth 32

/-- An absolute 16-bit target (spec/30_encoding.md R101, `Target16`). -/
def targetOf (t : Half) : Nat := t.toNat

/-- A signed 16-bit delta (spec/30_encoding.md R101, `Delta16`). -/
def deltaOf (d : Half) : Int := d.toInt

/-- `EA = x[ra] + zext_8(off)`, an unbounded integer (spec/20_memory.md R52). -/
def effectiveAddress (s : State) (ra : Reg) (off : Byte) : Int := s.int ra + off.toNat

/-- The space a section tag names (spec/20_memory.md R50, R51). -/
def spaceOf : Section → Space
  | .stack => .stack
  | .heap => .heap

/-! ### Words as bytes (spec/20_memory.md R53) -/

/-- A word's four bytes, the least significant first. -/
def wordBytes (w : Word) : List Byte :=
  [w.extractLsb' 0 8, w.extractLsb' 8 8, w.extractLsb' 16 8, w.extractLsb' 24 8]

/-- `le32` of the first four bytes of a list (spec/00_scope.md, notation). -/
def wordOfBytes (bs : List Byte) : Word :=
  bs.getD 3 0#8 ++ bs.getD 2 0#8 ++ bs.getD 1 0#8 ++ bs.getD 0 0#8

/-- The least significant byte of a word (spec/44_memory_ops.md R224). -/
def lowByte (w : Word) : Byte := w.extractLsb' 0 8

/-! ### Narrowing (spec/00_scope.md, notation) -/

/-- The value lies in `i32`. -/
abbrev InI32 (v : Int) : Prop := -2147483648 ≤ v ∧ v ≤ 2147483647

/-- `wrap32`: the pattern congruent to `v` modulo 2^32. -/
def wrap32 (v : Int) : Word := BitVec.ofInt 32 v

/-- `chk32`: the value itself inside `i32`; outside it wraps or faults by `P_OVERFLOW`. -/
def chk32 (p : Params) (v : Int) : Except Fault Word :=
  if InI32 v then .ok (wrap32 v)
  else
    match p.overflow with
    | .wrap => .ok (wrap32 v)
    | .fault => .error (.arithmeticOverflow v)

end Sys2Proof.Machine
end

