-- ==== Sys2Proof/Machine/Flags.lean ====
section
/-! DEFINITION. The equal flag: the six comparisons that write it (spec/42_comparison.md). -/

namespace Sys2Proof.Machine

/-- The equal flag written (spec/10_state.md R30). -/
def State.setEqf (s : State) (b : Bool) : State := { s with eqf := b }

/-- `EQ` on `i32` values (spec/42_comparison.md R171). -/
def eqResult (a b : Int) : Bool := decide (a = b)

/-- `NEQ` (R172). -/
def neqResult (a b : Int) : Bool := decide (a ≠ b)

/-- `GT`, signed (R173). -/
def gtResult (a b : Int) : Bool := decide (a > b)

/-- `LT`, signed (R174). -/
def ltResult (a b : Int) : Bool := decide (a < b)

/-- `GTQ`, greater or equal, signed (R175). -/
def gtqResult (a b : Int) : Bool := decide (a ≥ b)

/-- `LTQ`, less or equal, signed (R176). -/
def ltqResult (a b : Int) : Bool := decide (a ≤ b)

end Sys2Proof.Machine
end

