-- ==== Sys2Proof/Machine/Utf8.lean ====
section
/-! DEFINITION. The UTF-8 test of the print syscalls (spec/46_syscall.md R272,
spec/93_implementation_defined.md G1; PRESUMED, log entry 7). -/

namespace Sys2Proof.Machine

/-- A Unicode scalar value: U+0000..U+D7FF or U+E000..U+10FFFF. -/
def isScalar (c : Nat) : Bool := decide (c < 0xD800) || (decide (0xE000 ≤ c) && decide (c ≤ 0x10FFFF))

/-- The scan: `k` continuation bytes are still due for a character whose bits so far are `acc` and whose
least value in shortest form is `least`. -/
def utf8Run : Nat → Nat → Nat → List Byte → Bool
  | 0, _, _, [] => true
  | _ + 1, _, _, [] => false
  | 0, _, _, b :: bs =>
    if b.toNat < 0x80 then utf8Run 0 0 0 bs
    else if b.toNat < 0xC0 then false
    else if b.toNat < 0xE0 then utf8Run 1 0x80 (b.toNat - 0xC0) bs
    else if b.toNat < 0xF0 then utf8Run 2 0x800 (b.toNat - 0xE0) bs
    else if b.toNat < 0xF8 then utf8Run 3 0x10000 (b.toNat - 0xF0) bs
    else false
  | k + 1, least, acc, b :: bs =>
    if 0x80 ≤ b.toNat ∧ b.toNat < 0xC0 then
      if k = 0 then
        decide (least ≤ acc * 64 + (b.toNat - 0x80)) && isScalar (acc * 64 + (b.toNat - 0x80)) && utf8Run 0 0 0 bs
      else utf8Run k least (acc * 64 + (b.toNat - 0x80)) bs
    else false

/-- `valid_utf8`: shortest-form sequences of one to four bytes that encode scalar values. -/
def validUtf8 (bs : List Byte) : Bool := utf8Run 0 0 0 bs

end Sys2Proof.Machine
end

