-- ==== Sys2Proof/Machine/Ops.lean ====
section
/-! DEFINITION. The shared operations: taking a fault, performing an instruction, the stack unit, the heap
unit, bounds-checked accesses, jumps, and the string scan of the print syscalls. -/

namespace Sys2Proof.Machine

/-! ### Faults and the frame of every instruction -/

/-- The code of each fault (spec/60_exceptions.md R301). -/
def Fault.code : Fault → Nat
  | .illegalOpcode _ => 1
  | .truncatedInstruction _ _ _ => 2
  | .invalidRegister _ => 3
  | .invalidSection _ => 4
  | .pcOutOfRange _ => 5
  | .divideByZero => 6
  | .divideOverflow => 7
  | .arithmeticOverflow _ => 8
  | .addressOutOfRange _ _ _ => 9
  | .resourceExhausted _ _ => 10
  | .invalidAllocSize _ => 11
  | .invalidFree _ => 12
  | .doubleFree _ => 13
  | .unterminatedString _ _ => 14
  | .invalidUtf8 _ _ => 15
  | .unknownSyscall _ => 16

/-- Taking a fault: nothing changes but the status, which records the cause and the offset of the
instruction, still the pc (spec/60_exceptions.md R302, spec/30_encoding.md R130). There is no handler and
no return from a fault (R305). -/
def State.raise (s : State) (f : Fault) : State := { s with status := .faulted f s.pc }

/-- The status of a normal halt (spec/60_exceptions.md R303). -/
def State.halt (s : State) (c : HaltCause) : State := { s with status := .halted c }

/-- The pc advanced past an instruction's full width (spec/10_state.md R28). -/
def State.advance (s : State) (w : Nat) : State := { s with pc := s.pc + w }

/-- One instruction of width `w`: the pc is advanced, then the effect runs; a fault in it leaves the state
before the instruction with the faulted status (spec/00_scope.md R5, spec/30_encoding.md R130). -/
def perform (w : Nat) (s : State) (effect : State → Except Fault State) :
    Host.Outcome State Fault Refusal :=
  match effect (s.advance w) with
  | .ok t => .next t
  | .error f => .next (s.raise f)

/-! ### Jumps -/

/-- The pc overwritten; a negative target is refused (spec/10_state.md R29). -/
def jumpTo (n : Int) (s : State) : Except Fault State :=
  if n < 0 then .error (.pcOutOfRange n) else .ok { s with pc := n.toNat }

/-! ### The stack unit (spec/20_memory.md R60 to R67) -/

/-- Bytes appended at the end of the stack, within the limit (R62, R63). -/
def stackAppend (p : Params) (bs : List Byte) (st : Memory) : Except Fault Memory :=
  if st.size + bs.length > p.memLimit then .error (.resourceExhausted .stack (st.size + bs.length))
  else .ok (st.append bs)

/-- `push_word` (R62). -/
def pushWord (p : Params) (v : Word) (st : Memory) : Except Fault Memory := stackAppend p (wordBytes v) st

/-- `push_byte` (R63), used by no instruction (R61). -/
def pushByte (p : Params) (b : Byte) (st : Memory) : Except Fault Memory := stackAppend p [b] st

/-- `pop_word` (R64): a short stack gives 0 and is left unchanged. -/
def popWord (st : Memory) : Word × Memory :=
  if st.size < 4 then (0#32, st)
  else (wordOfBytes (st.readBytes (st.size - 4) 4), st.truncate (st.size - 4))

/-- `pop_byte` (R65), used by no instruction (R61). -/
def popByte (st : Memory) : Byte × Memory :=
  if st.size < 1 then (0#8, st) else (st.byte (st.size - 1), st.truncate (st.size - 1))

/-- `safe_grow` (R66). -/
def safeGrow (p : Params) (n : Nat) (st : Memory) : Except Fault Memory :=
  if n > st.size then
    if n > p.memLimit then .error (.resourceExhausted .stack n) else .ok (st.grow n)
  else .ok st

/-- SP moved by `d` bytes through `chk32` (spec/10_state.md R24, spec/43_control.md R202). -/
def moveSp (d : Int) (s : State) : Except Fault State := do
  let v ← chk32 s.params (s.int spReg + d)
  .ok (s.setReg spReg v)

/-- A word pushed and SP moved up by 4 (spec/43_control.md R202, spec/44_memory_ops.md R232). -/
def pushAndMove (v : Word) (s : State) : Except Fault State := do
  let st ← pushWord s.params v s.stack
  moveSp 4 { s with stack := st }

/-- A word popped and SP moved down by 4 (spec/43_control.md R204, spec/44_memory_ops.md R234). -/
def popAndMove (s : State) : Except Fault (Word × State) := do
  let t ← moveSp (-4) { s with stack := (popWord s.stack).2 }
  .ok ((popWord s.stack).1, t)

/-! ### The heap unit (spec/20_memory.md R70 to R82) -/

/-- `align_up` (R72). -/
def alignUp (p : Params) (n : Nat) : Nat := (n + (p.heapAlign - 1)) / p.heapAlign * p.heapAlign

/-- The first-fit scan (R75): the start of the first free block of at least `a` bytes, and the list with
that block marked used, its size kept (R76). -/
def firstFit (a : Nat) : List Block → Option (Nat × List Block)
  | [] => none
  | b :: bs =>
    if b.isFree = true ∧ a ≤ b.size then some (b.start, { b with isFree := false } :: bs)
    else
      match firstFit a bs with
      | none => none
      | some (start, bs') => some (start, b :: bs')

/-- `heap_alloc` (R74, R75, R77): the start offset of the block, and the heap after it. -/
def heapAlloc (p : Params) (n : Int) (h : Heap) : Except Fault (Nat × Heap) :=
  if n ≤ 0 then .error (.invalidAllocSize n)
  else
    match firstFit (alignUp p n.toNat) h.blocks with
    | some (start, bs) => .ok (start, { h with blocks := bs })
    | none =>
      if h.hbuf.size + alignUp p n.toNat > p.memLimit then
        .error (.resourceExhausted .heap (h.hbuf.size + alignUp p n.toNat))
      else
        .ok (h.hbuf.size,
          { blocks := h.blocks ++ [{ start := h.hbuf.size, size := alignUp p n.toNat, isFree := false }]
            hbuf := h.hbuf.grow (h.hbuf.size + alignUp p n.toNat) })

/-- The first block that starts at `ptr`, marked free (R79; starts are unique by R71, log entry 8). -/
def markFree (ptr : Int) : List Block → List Block
  | [] => []
  | b :: bs => if (b.start : Int) = ptr then { b with isFree := true } :: bs else b :: markFree ptr bs

/-- The maximal trailing run of free blocks (R79). -/
def trailingFree (bs : List Block) : List Block := bs.reverse.takeWhile fun b => b.isFree

/-- The block list without its trailing run of free blocks (R79). -/
def dropTrailingFree (bs : List Block) : List Block := (bs.reverse.dropWhile fun b => b.isFree).reverse

/-- The sum of the sizes of blocks. -/
def sizeSum (bs : List Block) : Nat := (bs.map fun b => b.size).sum

/-- `heap_free` (R79). -/
def heapFree (ptr : Int) (h : Heap) : Except Fault Heap :=
  match h.blocks.find? fun b => decide ((b.start : Int) = ptr) with
  | none => .error (.invalidFree ptr)
  | some b =>
    if b.isFree = true then .error (.doubleFree ptr)
    else
      .ok
        { blocks := dropTrailingFree (markFree ptr h.blocks)
          hbuf := h.hbuf.truncate (h.hbuf.size - sizeSum (trailingFree (markFree ptr h.blocks))) }

/-! ### Bounds-checked accesses (spec/20_memory.md R56, R57) -/

/-- The buffer of a section (R50). -/
def State.buffer (s : State) : Section → Memory
  | .stack => s.stack
  | .heap => s.heap.hbuf

/-- `MemRead` (R56). -/
def memRead (s : State) (sec : Section) (a : Int) (n : Nat) : Except Fault (List Byte) :=
  if a < 0 ∨ a + n > (s.buffer sec).size then .error (.addressOutOfRange (spaceOf sec) a n)
  else .ok ((s.buffer sec).readBytes a.toNat n)

/-- `MemWrite` (R57): the stack grows to hold the bytes, the heap does not. -/
def memWrite (s : State) (sec : Section) (a : Int) (bs : List Byte) : Except Fault State :=
  if a < 0 then .error (.addressOutOfRange (spaceOf sec) a bs.length)
  else
    match sec with
    | .heap =>
      if a + bs.length > s.heap.hbuf.size then .error (.addressOutOfRange .heap a bs.length)
      else .ok { s with heap := { s.heap with hbuf := s.heap.hbuf.writeBytes a.toNat bs } }
    | .stack => do
      let st ← safeGrow s.params (a.toNat + bs.length) s.stack
      .ok { s with stack := st.writeBytes a.toNat bs }

/-- One byte of a space as the host reads it; none past the end. -/
def State.byte? (s : State) (sp : Space) (a : Nat) : Option Byte :=
  match sp with
  | .stack => s.stack.byte? a
  | .heap => s.heap.hbuf.byte? a
  | .readOnly => s.ro.byte? a

/-! ### The output port and the string scan (spec/46_syscall.md R272) -/

/-- `emit` (spec/10_state.md R33). -/
def State.emit (s : State) (bs : List Byte) : State := { s with out := s.out ++ bs }

/-- The bytes from address `a` up to the first NUL among the next `fuel` bytes, none if there is none. -/
def stringAt (m : Memory) : Nat → Nat → Option (List Byte)
  | 0, _ => none
  | fuel + 1, a =>
    if m.byte a = 0#8 then some []
    else
      match stringAt m fuel (a + 1) with
      | none => none
      | some bs => some (m.byte a :: bs)

/-- `print_from` (R272): the bytes to emit. -/
def printFrom (p : Params) (m : Memory) (space : Space) (o : Int) : Except Fault (List Byte) :=
  if o < 0 ∨ o ≥ m.size then .error (.addressOutOfRange space o 1)
  else
    match stringAt m (m.size - o.toNat) o.toNat with
    | none => .error (.unterminatedString space o)
    | some bs =>
      if validUtf8 bs then .ok (bs ++ p.printTerminator) else .error (.invalidUtf8 space o)

end Sys2Proof.Machine
end

