-- ==== Sys2Proof/Machine/Arithmetic.lean ====
section
/-! DEFINITION. The arithmetic family (spec/41_arithmetic.md). -/

namespace Sys2Proof.Machine

/-- An exact result passed through `chk32` and written to `rd` (spec/41_arithmetic.md R150). -/
def writeChecked (rd : Reg) (v : Int) (t : State) : Except Fault State := do
  let w ← chk32 t.params v
  .ok (t.setReg rd w)

/-- `ADD ra, rb, rd` (R151). -/
def execAdd (ra rb rd : Reg) (s : State) : Host.Outcome State Fault Refusal :=
  perform Mnemonic.add.width s fun t => writeChecked rd (t.int ra + t.int rb) t

/-- `SUB ra, rb, rd` (R152). -/
def execSub (ra rb rd : Reg) (s : State) : Host.Outcome State Fault Refusal :=
  perform Mnemonic.sub.width s fun t => writeChecked rd (t.int ra - t.int rb) t

/-- `MUL ra, rb, rd` (R153). -/
def execMul (ra rb rd : Reg) (s : State) : Host.Outcome State Fault Refusal :=
  perform Mnemonic.mul.width s fun t => writeChecked rd (t.int ra * t.int rb) t

/-- Truncating division of `a` by `b`: the quotient to `rd`, the remainder to `rem` (R155, R156). -/
def divide (rd : Reg) (a b : Int) (t : State) : Except Fault State :=
  if b = 0 then .error .divideByZero
  else if a = -2147483648 ∧ b = -1 then .error .divideOverflow
  else .ok { t.setReg rd (wrap32 (a.tdiv b)) with rem := wrap32 (a.tmod b) }

/-- `DIV ra, rb, rd` (R155). -/
def execDiv (ra rb rd : Reg) (s : State) : Host.Outcome State Fault Refusal :=
  perform Mnemonic.div.width s fun t => divide rd (t.int ra) (t.int rb) t

end Sys2Proof.Machine
end

