-- ==== Sys2Proof/Machine/Bitwise.lean ====
section
/-! DEFINITION. The bitwise family (spec/45_bitwise.md). -/

namespace Sys2Proof.Machine

/-- `SHIFTL` of a pattern by an unmasked amount (spec/45_bitwise.md R252). -/
def shiftLeft (a : Word) (n : Nat) : Word := if n ≥ 32 then 0#32 else a <<< n

/-- `SHIFTR` of a pattern by an unmasked amount, of the kind `P_SHIFTR` (R252). -/
def shiftRight (k : ShiftKind) (a : Word) (n : Nat) : Word :=
  if n ≥ 32 then 0#32
  else
    match k with
    | .arithmetic => a.sshiftRight n
    | .logical => a >>> n

/-- `NOT r` (R251). -/
def execNot (r : Reg) (s : State) : Host.Outcome State Fault Refusal :=
  perform Mnemonic.not.width s fun t => .ok (t.setReg r (~~~t.reg r))

/-- `SHIFTL ra, rb` (R253). -/
def execShiftl (ra rb : Reg) (s : State) : Host.Outcome State Fault Refusal :=
  perform Mnemonic.shiftl.width s fun t => .ok (t.setReg ra (shiftLeft (t.reg ra) (t.reg rb).toNat))

/-- `SHIFTR ra, rb` (R254). -/
def execShiftr (ra rb : Reg) (s : State) : Host.Outcome State Fault Refusal :=
  perform Mnemonic.shiftr.width s fun t =>
    .ok (t.setReg ra (shiftRight t.params.shiftr (t.reg ra) (t.reg rb).toNat))

/-- `AND ra, rb` (R255). -/
def execAnd (ra rb : Reg) (s : State) : Host.Outcome State Fault Refusal :=
  perform Mnemonic.and.width s fun t => .ok (t.setReg ra (t.reg ra &&& t.reg rb))

/-- `OR ra, rb` (R256). -/
def execOr (ra rb : Reg) (s : State) : Host.Outcome State Fault Refusal :=
  perform Mnemonic.or.width s fun t => .ok (t.setReg ra (t.reg ra ||| t.reg rb))

end Sys2Proof.Machine
end

