-- ==== Sys2Proof/Machine/Compare.lean ====
section
/-! DEFINITION. The comparisons (spec/42_comparison.md). -/

namespace Sys2Proof.Machine

/-- `EQ ra, rb` (spec/42_comparison.md R171). -/
def execEq (ra rb : Reg) (s : State) : Host.Outcome State Fault Refusal :=
  perform Mnemonic.eq.width s fun t => .ok (t.setEqf (eqResult (t.int ra) (t.int rb)))

/-- `NEQ ra, rb` (R172). -/
def execNeq (ra rb : Reg) (s : State) : Host.Outcome State Fault Refusal :=
  perform Mnemonic.neq.width s fun t => .ok (t.setEqf (neqResult (t.int ra) (t.int rb)))

/-- `GT ra, rb` (R173). -/
def execGt (ra rb : Reg) (s : State) : Host.Outcome State Fault Refusal :=
  perform Mnemonic.gt.width s fun t => .ok (t.setEqf (gtResult (t.int ra) (t.int rb)))

/-- `LT ra, rb` (R174). -/
def execLt (ra rb : Reg) (s : State) : Host.Outcome State Fault Refusal :=
  perform Mnemonic.lt.width s fun t => .ok (t.setEqf (ltResult (t.int ra) (t.int rb)))

/-- `GTQ ra, rb` (R175). -/
def execGtq (ra rb : Reg) (s : State) : Host.Outcome State Fault Refusal :=
  perform Mnemonic.gtq.width s fun t => .ok (t.setEqf (gtqResult (t.int ra) (t.int rb)))

/-- `LTQ ra, rb` (R176). -/
def execLtq (ra rb : Reg) (s : State) : Host.Outcome State Fault Refusal :=
  perform Mnemonic.ltq.width s fun t => .ok (t.setEqf (ltqResult (t.int ra) (t.int rb)))

end Sys2Proof.Machine
end

