-- ==== Sys2Proof/Machine/Control.lean ====
section
/-! DEFINITION. Control flow and the calling convention (spec/43_control.md). In every effect the pc is
already the fall-through value (R190). -/

namespace Sys2Proof.Machine

/-- `JMP t16` (spec/43_control.md R191). -/
def execJmp (t : Half) (s : State) : Host.Outcome State Fault Refusal :=
  perform Mnemonic.jmp.width s fun u => jumpTo (targetOf t) u

/-- `JMPF d16` (R193). -/
def execJmpf (d : Half) (s : State) : Host.Outcome State Fault Refusal :=
  perform Mnemonic.jmpf.width s fun u => jumpTo ((u.pc : Int) + deltaOf d) u

/-- `JMPB d16` (R194). -/
def execJmpb (d : Half) (s : State) : Host.Outcome State Fault Refusal :=
  perform Mnemonic.jmpb.width s fun u => jumpTo ((u.pc : Int) - deltaOf d) u

/-- `JEQ t16` (R195). -/
def execJeq (t : Half) (s : State) : Host.Outcome State Fault Refusal :=
  perform Mnemonic.jeq.width s fun u => if u.eqf = true then jumpTo (targetOf t) u else .ok u

/-- `JEZ r, t16` (R196). -/
def execJez (r : Reg) (t : Half) (s : State) : Host.Outcome State Fault Refusal :=
  perform Mnemonic.jez.width s fun u => if u.int r = 0 then jumpTo (targetOf t) u else .ok u

/-- `RJMP r` (R197). -/
def execRjmp (r : Reg) (s : State) : Host.Outcome State Fault Refusal :=
  perform Mnemonic.rjmp.width s fun u => jumpTo (u.int r) u

/-- `CALL t16` (R201, R202): the return address and the caller's BP are pushed, then the pc and BP set. -/
def callEffect (t : Half) (u : State) : Except Fault State :=
  if u.pc > 2147483647 then .error (.pcOutOfRange u.pc)
  else do
    let u1 ← pushAndMove (wrap32 u.pc) u
    let u2 ← pushAndMove (u.reg bpReg) u1
    let u3 ← jumpTo (targetOf t) u2
    .ok (u3.setReg bpReg (u3.reg spReg))

/-- `CALL t16` (R202). -/
def execCall (t : Half) (s : State) : Host.Outcome State Fault Refusal :=
  perform Mnemonic.call.width s (callEffect t)

/-- `RET` (R204): BP is popped and restored, then the return address popped into the pc. -/
def retEffect (u : State) : Except Fault State := do
  let (bp, u1) ← popAndMove u
  let (r, u2) ← popAndMove (u1.setReg bpReg bp)
  jumpTo r.toInt u2

/-- `RET` (R204). -/
def execRet (s : State) : Host.Outcome State Fault Refusal :=
  perform Mnemonic.ret.width s retEffect

end Sys2Proof.Machine
end

