-- ==== Sys2Proof/Machine/Immediate.lean ====
section
/-! DEFINITION. The immediate load (spec/40_load.md). -/

namespace Sys2Proof.Machine

/-- `LOAD rd, imm16` (spec/40_load.md R141). -/
def execLoad (rd : Reg) (imm : Half) (s : State) : Host.Outcome State Fault Refusal :=
  perform Mnemonic.load.width s fun t => .ok (t.setReg rd (zext16 imm))

end Sys2Proof.Machine
end

