-- ==== Sys2Proof/Machine/LoadStore.lean ====
section
/-! DEFINITION. Loads, stores, push and pop (spec/44_memory_ops.md). -/

namespace Sys2Proof.Machine

/-- `LW r, [ra+off@sec]` (spec/44_memory_ops.md R221). -/
def execLw (r ra : Reg) (off : Byte) (sec : Section) (s : State) : Host.Outcome State Fault Refusal :=
  perform Mnemonic.lw.width s fun t => do
    let bs ← memRead t sec (effectiveAddress t ra off) 4
    .ok (t.setReg r (wordOfBytes bs))

/-- `SW r, [ra+off@sec]` (R222). -/
def execSw (r ra : Reg) (off : Byte) (sec : Section) (s : State) : Host.Outcome State Fault Refusal :=
  perform Mnemonic.sw.width s fun t =>
    memWrite t sec (effectiveAddress t ra off) (wordBytes (t.reg r))

/-- `LB r, [ra+off@sec]` (R223): the byte is zero-extended. -/
def execLb (r ra : Reg) (off : Byte) (sec : Section) (s : State) : Host.Outcome State Fault Refusal :=
  perform Mnemonic.lb.width s fun t => do
    let bs ← memRead t sec (effectiveAddress t ra off) 1
    .ok (t.setReg r (zext8 (byteField bs 0)))

/-- `SB r, [ra+off@sec]` (R224). -/
def execSb (r ra : Reg) (off : Byte) (sec : Section) (s : State) : Host.Outcome State Fault Refusal :=
  perform Mnemonic.sb.width s fun t =>
    memWrite t sec (effectiveAddress t ra off) [lowByte (t.reg r)]

/-- `PUSH r` (R232): the value pushed is the one from before SP moves. -/
def execPush (r : Reg) (s : State) : Host.Outcome State Fault Refusal :=
  perform Mnemonic.push.width s fun t => pushAndMove (t.reg r) t

/-- `POP r` (R233, R234): SP moves before `r` is written. -/
def execPop (r : Reg) (s : State) : Host.Outcome State Fault Refusal :=
  perform Mnemonic.pop.width s fun t => do
    let (v, u) ← popAndMove t
    .ok (u.setReg r v)

end Sys2Proof.Machine
end

