-- ==== Sys2Proof/Machine/Syscall.lean ====
section
/-! DEFINITION. The syscall instruction and its dispatcher (spec/46_syscall.md). -/

namespace Sys2Proof.Machine

/-- `CPrint` (spec/46_syscall.md R274). -/
def sysCPrint (t : State) : Except Fault State := do
  let bs ← printFrom t.params t.ro .readOnly (t.int argReg)
  .ok (t.emit bs)

/-- `PrintString` (R278). -/
def sysPrintString (t : State) : Except Fault State := do
  let bs ← printFrom t.params t.heap.hbuf .heap (t.int argReg)
  .ok (t.emit bs)

/-- `Alloc` (R276): the pointer goes to the syscall register. -/
def sysAlloc (t : State) : Except Fault State := do
  let (start, h) ← heapAlloc t.params (t.int argReg) t.heap
  .ok ({ t with heap := h }.setReg sysReg (wrap32 start))

/-- `Free` (R277). -/
def sysFree (t : State) : Except Fault State := do
  let h ← heapFree (t.int argReg) t.heap
  .ok { t with heap := h }

/-- The dispatcher (R271): the code is the whole of the syscall register. -/
def syscall (t : State) : Except Fault State :=
  let code := t.reg sysReg
  let codes := t.params.syscodes
  if code = codes.nop then .ok t
  else if code = codes.cprint then sysCPrint t
  else if code = codes.exit then .ok (t.halt .exit)
  else if code = codes.alloc then sysAlloc t
  else if code = codes.free then sysFree t
  else if code = codes.printString then sysPrintString t
  else .error (.unknownSyscall code.toInt)

/-- `SYSC` (R271). -/
def execSysc (s : State) : Host.Outcome State Fault Refusal :=
  perform Mnemonic.sysc.width s syscall

end Sys2Proof.Machine
end

