-- ==== Sys2Proof/Machine/Dispatch.lean ====
section
/-! DEFINITION. The dispatch of an instruction to its meaning. -/

namespace Sys2Proof.Machine

def exec (i : Instr) (s : State) : Host.Outcome State Fault Refusal :=
  match i with
  | .load rd imm => Sys2Proof.Machine.execLoad rd imm s
  | .add ra rb rd => Sys2Proof.Machine.execAdd ra rb rd s
  | .sub ra rb rd => Sys2Proof.Machine.execSub ra rb rd s
  | .mul ra rb rd => Sys2Proof.Machine.execMul ra rb rd s
  | .div ra rb rd => Sys2Proof.Machine.execDiv ra rb rd s
  | .eq ra rb => Sys2Proof.Machine.execEq ra rb s
  | .neq ra rb => Sys2Proof.Machine.execNeq ra rb s
  | .gt ra rb => Sys2Proof.Machine.execGt ra rb s
  | .lt ra rb => Sys2Proof.Machine.execLt ra rb s
  | .gtq ra rb => Sys2Proof.Machine.execGtq ra rb s
  | .ltq ra rb => Sys2Proof.Machine.execLtq ra rb s
  | .jmp t => Sys2Proof.Machine.execJmp t s
  | .jmpf d => Sys2Proof.Machine.execJmpf d s
  | .jmpb d => Sys2Proof.Machine.execJmpb d s
  | .jeq t => Sys2Proof.Machine.execJeq t s
  | .jez r t => Sys2Proof.Machine.execJez r t s
  | .rjmp r => Sys2Proof.Machine.execRjmp r s
  | .call t => Sys2Proof.Machine.execCall t s
  | .ret => Sys2Proof.Machine.execRet s
  | .sw r ra off sec => Sys2Proof.Machine.execSw r ra off sec s
  | .lw r ra off sec => Sys2Proof.Machine.execLw r ra off sec s
  | .sb r ra off sec => Sys2Proof.Machine.execSb r ra off sec s
  | .lb r ra off sec => Sys2Proof.Machine.execLb r ra off sec s
  | .not r => Sys2Proof.Machine.execNot r s
  | .shiftl ra rb => Sys2Proof.Machine.execShiftl ra rb s
  | .shiftr ra rb => Sys2Proof.Machine.execShiftr ra rb s
  | .and ra rb => Sys2Proof.Machine.execAnd ra rb s
  | .or ra rb => Sys2Proof.Machine.execOr ra rb s
  | .sysc => Sys2Proof.Machine.execSysc s
  | .push r => Sys2Proof.Machine.execPush r s
  | .pop r => Sys2Proof.Machine.execPop r s

end Sys2Proof.Machine
end

