-- ==== Sys2Proof/Machine/Fetch.lean ====
section
/-! DEFINITION. What a step does before an instruction runs (spec/30_encoding.md R130 to R133), and placing an
instruction where the next step fetches it. -/

namespace Sys2Proof.Machine

/-- The fault a decode error is, at `pc` in a stream of `len` bytes (spec/30_encoding.md R120 to R122). The
step never decodes where there is no byte (log entry 15). -/
def faultOfDecode (pc len : Nat) : DecodeError → Fault
  | .noBytes => .pcOutOfRange pc
  | .illegalOpcode op => .illegalOpcode op
  | .truncated op => .truncatedInstruction op pc len
  | .badRegister b => .invalidRegister b
  | .badSection b => .invalidSection b

/-- The bytes of the stream at the pc, as many as the longest instruction needs or as are left. -/
def instrBytes (s : State) : List Byte :=
  s.prog.readBytes s.pc (min longestWidth (s.prog.size - s.pc))

/-- The outcome of a fetch: the step ends in a state with no instruction run, or an instruction runs. -/
inductive Fetched
  | settled (t : State)
  | run (i : Instr)

/-- The fetch of a step (spec/30_encoding.md R130): a terminal status stays (R133), the end of the stream is a
normal halt, a pc past it faults (R131), and decode errors fault with nothing else changed. -/
def fetch (s : State) : Fetched :=
  match s.status with
  | .halted _ => .settled s
  | .faulted _ _ => .settled s
  | .running =>
    if s.pc = s.prog.size then .settled (s.halt .endOfStream)
    else if s.pc > s.prog.size then .settled (s.raise (.pcOutOfRange s.pc))
    else
      match decode s.params (instrBytes s) with
      | .ok (i, _) => .run i
      | .error e => .settled (s.raise (faultOfDecode s.pc s.prog.size e))

/-- A running state whose stream holds at the pc the instruction that spec/opcode_table.json numbers `w`
(log entry 5). -/
def placeTableWord (s : State) (nbits w : Nat) : State :=
  { s with
    status := .running
    prog := (s.prog.grow (s.pc + longestWidth)).writeBytes s.pc (tableBytes nbits w) }

end Sys2Proof.Machine
end

