-- ==== Sys2Proof/Machine/Step.lean ====
section
/-! DEFINITION. One step of the machine (spec/30_encoding.md R130). -/

namespace Sys2Proof.Machine

/-- `run_once` (R130): a fetch, then the instruction's meaning. -/
def step (s : State) : Host.Outcome State Fault Refusal :=
  match Sys2Proof.Machine.fetch s with
  | .settled t => .next t
  | .run i => exec i s

/-- `s` with the instruction of number `w` where the next step fetches it (log entry 5). -/
def State.withFetchWord (s : State) (nbits w : Nat) : State :=
  Sys2Proof.Machine.placeTableWord s nbits w

end Sys2Proof.Machine
end

