-- ==== Sys2Proof/Machine/HostPort.lean ====
section
/-! DEFINITION. The host's operations on a machine: create, load, step, run (spec/60_exceptions.md R320, R321;
spec/70_reset_and_hazards.md R342 to R345). -/

namespace Sys2Proof.Machine

/-- The loader's error results (spec/70_reset_and_hazards.md R344). -/
inductive LoadError
  | badMagic
  | truncatedHeader
  | roBlockOverrun
deriving DecidableEq, Repr

/-- The header's length in bytes, `HDR_LEN` (spec/00_scope.md R4). -/
def headerLength : Nat := 64

/-- `ro_block_len` of an image: bytes 4..7, little-endian (spec/30_encoding.md R106). -/
def roBlockLength (img : List Byte) : Nat := (wordOfBytes (img.drop 4)).toNat

/-- The state a successful load installs (spec/70_reset_and_hazards.md R342, R345). -/
def installImage (p : Params) (img : List Byte) : State :=
  { State.initial p with
    ro := Memory.ofBytes ((img.drop headerLength).take (roBlockLength img))
    prog := Memory.ofBytes (img.drop (headerLength + roBlockLength img)) }

/-- `load_bytecode` (R343): the checks in order; an error changes nothing (R344). -/
def loadBytecode (img : List Byte) (s : State) : State × Except LoadError Unit :=
  if img.length < headerLength then (s, .error .truncatedHeader)
  else if img.take 4 ≠ s.params.magic.toList then (s, .error .badMagic)
  else if headerLength + roBlockLength img > img.length then (s, .error .roBlockOverrun)
  else (installImage s.params img, .ok ())

/-- `run_once` (spec/30_encoding.md R130): the state after one step, and whether execution may continue. -/
def runOnce (s : State) : State × Bool :=
  match step s with
  | .next t => (t, decide (t.status = .running))
  | .fault _ => (s, false)
  | .refused _ => (s, false)

/-- `run` (spec/60_exceptions.md R321), observed for at most `fuel` steps: the state in which a step first
returned false, none if none did. -/
def runFor : Nat → State → Option State
  | 0, _ => none
  | fuel + 1, s =>
    match runOnce s with
    | (t, true) => runFor fuel t
    | (t, false) => some t

end Sys2Proof.Machine
end

