-- ==== Sys2Proof/Safety.lean ====
section
/-! DEFINITION. The terms claims are stated in: how a run ends, and the invariant of the machine. -/

namespace Sys2Proof.Machine

/-- The status is one no step leaves (spec/10_state.md R32). -/
abbrev State.terminal (s : State) : Prop := s.status ≠ .running

/-- A program ends well in a halted status (spec/60_exceptions.md R303). -/
def State.endedWell (s : State) : Bool :=
  match s.status with
  | .halted _ => true
  | .running => false
  | .faulted _ _ => false

/-- A program fails in a faulted status (spec/60_exceptions.md R303). -/
def State.failed (s : State) : Bool :=
  match s.status with
  | .faulted _ _ => true
  | .running => false
  | .halted _ => false

/-- A step is safe when it answers a next state that has not failed. -/
def State.stepsSafely (s : State) : Prop := ∃ t, step s = .next t ∧ t.failed = false

/-- The blocks lie end to end from `start` on (spec/20_memory.md R71 (a)). -/
def contiguousFrom : Nat → List Block → Prop
  | _, [] => True
  | start, b :: bs => b.start = start ∧ contiguousFrom (start + b.size) bs

/-- The heap invariants of spec/20_memory.md R71, and the canonical form of the buffer. -/
structure Heap.Inv (p : Params) (h : Heap) : Prop where
  /-- R71 (a) -/
  contiguous : contiguousFrom 0 h.blocks
  /-- R71 (b) -/
  lengthIsSum : h.hbuf.size = sizeSum h.blocks
  /-- R71 (c) -/
  sizesAligned : ∀ b ∈ h.blocks, 0 < b.size ∧ p.heapAlign ∣ b.size
  /-- R71 (d) -/
  lastUsed : ∀ b, h.blocks.getLast? = some b → b.isFree = false
  /-- R71 (e) -/
  startsIncrease : h.blocks.Pairwise fun b c => b.start < c.start
  /-- R77: the buffer is within the limit. -/
  withinLimit : h.hbuf.size ≤ p.memLimit
  /-- The buffer is in its canonical form. -/
  canonical : h.hbuf.wf

/-- The machine's invariant: allowed parameters (spec/00_scope.md R4), every byte sequence in its canonical
form, the stack within its limit (spec/20_memory.md R60), and the heap invariants (R71). -/
structure State.Inv (s : State) : Prop where
  paramsAllowed : s.params.WellFormed
  progCanonical : s.prog.wf
  roCanonical : s.ro.wf
  stackCanonical : s.stack.wf
  stackWithinLimit : s.stack.size ≤ s.params.memLimit
  heapInv : s.heap.Inv s.params

/-! ### What each instruction may write -/

/-- The registers an instruction may write: its destination operand and the registers the spec says it
updates implicitly (spec/10_state.md R22 to R25). -/
def destinations : Instr → List Reg
  | .load rd _ => [rd]
  | .add _ _ rd => [rd]
  | .sub _ _ rd => [rd]
  | .mul _ _ rd => [rd]
  | .div _ _ rd => [rd]
  | .eq _ _ => []
  | .neq _ _ => []
  | .gt _ _ => []
  | .lt _ _ => []
  | .gtq _ _ => []
  | .ltq _ _ => []
  | .jmp _ => []
  | .jmpf _ => []
  | .jmpb _ => []
  | .jeq _ => []
  | .jez _ _ => []
  | .rjmp _ => []
  | .call _ => [spReg, bpReg]
  | .ret => [spReg, bpReg]
  | .sw _ _ _ _ => []
  | .lw r _ _ _ => [r]
  | .sb _ _ _ _ => []
  | .lb r _ _ _ => [r]
  | .not r => [r]
  | .shiftl ra _ => [ra]
  | .shiftr ra _ => [ra]
  | .and ra _ => [ra]
  | .or ra _ => [ra]
  | .sysc => [sysReg]
  | .push _ => [spReg]
  | .pop r => [spReg, r]

/-- The opcodes that write the equal flag (spec/10_state.md R30). -/
def comparisons : List Mnemonic := [.eq, .neq, .gt, .lt, .gtq, .ltq]

/-- The opcodes that may overwrite the pc (spec/43_control.md). -/
def transfers : List Mnemonic := [.jmp, .jmpf, .jmpb, .jeq, .jez, .rjmp, .call, .ret]

/-- The instruction may write the stack buffer (spec/20_memory.md R50, R61). -/
def mayWriteStack (i : Instr) : Prop :=
  i.mnemonic ∈ [.push, .pop, .call, .ret] ∨ (∃ r ra off, i = .sw r ra off .stack) ∨ ∃ r ra off, i = .sb r ra off .stack

/-- The instruction may write the heap unit (spec/20_memory.md R50). -/
def mayWriteHeap (i : Instr) : Prop :=
  i = .sysc ∨ (∃ r ra off, i = .sw r ra off .heap) ∨ ∃ r ra off, i = .sb r ra off .heap

/-- The byte positions of the register fields of a format, rising (spec/30_encoding.md R102). -/
def registerFields : Format → List Nat
  | .n => []
  | .r => [1]
  | .rr => [1, 2]
  | .rrr => [1, 2, 3]
  | .ri => [1]
  | .t => []
  | .d => []
  | .rt => [1]
  | .rm => [1, 2]

/-- The state `t` after an instruction of width 5 that stores `bs` at address `ea` of a section of `s`: the
bytes stored; every other byte of the section as before, zeros between an old end of the stack and `ea`,
none past the new end; the other section, the block list and everything but the pc as before
(spec/20_memory.md R57, R66). -/
def storedAt (s t : State) (sec : Section) (ea : Nat) (bs : List Byte) : Prop :=
  (∀ k < bs.length, (t.buffer sec).byte? (ea + k) = bs[k]?) ∧
    (∀ a, a < ea ∨ ea + bs.length ≤ a →
      (t.buffer sec).byte? a =
        if a < (s.buffer sec).size then (s.buffer sec).byte? a else if a < ea then some 0#8 else none) ∧
    (∀ other, other ≠ sec → t.buffer other = s.buffer other) ∧
    t.heap.blocks = s.heap.blocks ∧
    t = { s with pc := s.pc + 5, stack := t.stack, heap := t.heap }

/-! ### Numbers of the spec's notation -/

/-- A value an SP update or an arithmetic result may take without a fault: it lies in `i32`, or results
wrap (spec/00_scope.md, `chk32`). -/
abbrev State.fits (s : State) (v : Int) : Prop := InI32 v ∨ s.params.overflow = .wrap

/-- `le32` (spec/00_scope.md, notation). -/
def le32 (b0 b1 b2 b3 : Byte) : Nat :=
  b0.toNat + 256 * b1.toNat + 65536 * b2.toNat + 16777216 * b3.toNat

/-- The UTF-8 bytes of a scalar value, in shortest form (spec/93_implementation_defined.md G1; log entry 7). -/
def utf8Encode (c : Nat) : List Byte :=
  if c < 0x80 then [BitVec.ofNat 8 c]
  else if c < 0x800 then [BitVec.ofNat 8 (0xC0 + c / 64), BitVec.ofNat 8 (0x80 + c % 64)]
  else if c < 0x10000 then
    [BitVec.ofNat 8 (0xE0 + c / 4096), BitVec.ofNat 8 (0x80 + c / 64 % 64), BitVec.ofNat 8 (0x80 + c % 64)]
  else
    [BitVec.ofNat 8 (0xF0 + c / 262144), BitVec.ofNat 8 (0x80 + c / 4096 % 64),
      BitVec.ofNat 8 (0x80 + c / 64 % 64), BitVec.ofNat 8 (0x80 + c % 64)]

end Sys2Proof.Machine
end

