-- ==== Sys2Proof/Certificates/Slice0/Obligations.lean ====
section
/-! DEFINITION. The statements for the provers. A next state is written `(s.advance w).setReg r v`: the state
with its pc advanced by `w` bytes and register `r` written; `s.raise f` is the state with only its status
changed, to the fault `f` at its pc. -/

open Sys2Proof Sys2Proof.Machine

/-! ### Reset and the invariant -/

/-- spec/10_state.md R37: the state `VM::new` creates, and the one a successful load installs, which holds the
image's block and stream and is that state in every other part. -/
def Obligations.ResetStateIsSpecified : Prop :=
  ∀ p : Params,
    (∀ r, (State.initial p).int r = 0) ∧ (State.initial p).pc = 0 ∧ (State.initial p).eqf = false ∧
      (State.initial p).rem.toInt = 0 ∧ (State.initial p).status = .running ∧
      (State.initial p).prog.toBytes = [] ∧ (State.initial p).ro.toBytes = [] ∧
      (State.initial p).stack.toBytes = [] ∧ (State.initial p).heap.blocks = [] ∧
      (State.initial p).heap.hbuf.toBytes = [] ∧ (State.initial p).out = [] ∧
      State.reset = State.initial State.reset.params ∧
      ∀ (img : List Byte) (s t : State), loadBytecode img s = (t, .ok ()) →
        t.ro.toBytes = (img.drop 64).take (roBlockLength img) ∧
          t.prog.toBytes = img.drop (64 + roBlockLength img) ∧
          { t with prog := Memory.empty, ro := Memory.empty } = State.initial s.params

/-- The reset state of every allowed choice of the parameters meets the invariant; the reference choice
(log entry 1) is an allowed one. -/
def Obligations.ResetMeetsInvariant : Prop :=
  (∀ p : Params, p.WellFormed → (State.initial p).Inv) ∧ State.reset.Inv

/-- spec/20_memory.md R71, R60, R77: every step keeps the invariant. The canonical form of the byte sequences is
the model's (log entry 4). -/
def Obligations.StepKeepsInvariant : Prop := ∀ s t, s.Inv → step s = .next t → t.Inv

/-- A load keeps the invariant too, whatever the image and whether or not it succeeds
(spec/70_reset_and_hazards.md R342 to R345). -/
def Obligations.LoadKeepsInvariant : Prop :=
  ∀ (img : List Byte) (s : State), s.Inv → (loadBytecode img s).1.Inv

/-! ### Decoding and encoding -/

/-- spec/30_encoding.md R102, R120: an encoded instruction decodes to itself, under any distinct opcode bytes. -/
def Obligations.DecodeOfEncodeIsIdentity : Prop :=
  ∀ (p : Params) (i : Instr) (rest : List Byte), p.opcodesDistinct →
    decode p (encode p i ++ rest) = .ok (i, rest)

/-- Bytes that decode are the encoding of what they decode to: no two byte strings read as one instruction. -/
def Obligations.DecodedBytesAreTheEncoding : Prop :=
  ∀ (p : Params) (bs : List Byte) (i : Instr) (rest : List Byte),
    decode p bs = .ok (i, rest) → bs = encode p i ++ rest

/-- Words of spec/95_test_vectors.md, under the reference opcode bytes, one or more of each format. -/
def Obligations.SampleWordsDecode : Prop :=
  decode Params.reference [0x01, 0x05, 0x12, 0x34] = .ok (.load 5 0x1234, []) ∧
    decode Params.reference [0x02, 0x00, 0x01, 0x02] = .ok (.add 0 1 2, []) ∧
    decode Params.reference [0x08, 0x01, 0x02] = .ok (.gt 1 2, []) ∧
    decode Params.reference [0x0E, 0x80, 0x00] = .ok (.jmpb 0x8000, []) ∧
    decode Params.reference [0x10, 0x00, 0x00, 0x1B] = .ok (.jez 0 27, []) ∧
    decode Params.reference [0x13] = .ok (.ret, []) ∧
    decode Params.reference [0x15, 0x06, 0x20, 0x04, 0x01] = .ok (.lw 6 32 4 .heap, []) ∧
    decode Params.reference [0x1F, 0x21] = .ok (.pop 33, [])

/-! ### The step -/

/-- spec/30_encoding.md R130: a step runs the instruction its bytes decode to, and adds nothing around it. -/
def Obligations.StepRunsDecodedInstruction : Prop :=
  ∀ (s : State) (i : Instr) (rest : List Byte), s.status = .running → s.pc < s.prog.size →
    decode s.params (instrBytes s) = .ok (i, rest) → step s = exec i s

/-- spec/30_encoding.md R120, R130: where the stream holds an instruction's encoding at the pc, the step runs it. -/
def Obligations.StepRunsEncodedInstruction : Prop :=
  ∀ (s : State) (i : Instr), s.status = .running → s.params.opcodesDistinct →
    (∀ k < i.width, s.prog.byte? (s.pc + k) = (encode s.params i)[k]?) → step s = exec i s

/-- spec/30_encoding.md R131: the normal end at the stream's end, a fault past it. -/
def Obligations.StepAtAndPastStreamEnd : Prop :=
  ∀ s : State, s.status = .running →
    (s.pc = s.prog.size → step s = .next { s with status := .halted .endOfStream }) ∧
      (s.prog.size < s.pc → step s = .next { s with status := .faulted (.pcOutOfRange s.pc) s.pc })

/-- spec/30_encoding.md R133: a terminal status is never left and nothing changes. -/
def Obligations.TerminalStatusStays : Prop :=
  ∀ s : State, s.status ≠ .running → step s = .next s ∧ runOnce s = (s, false)

/-- spec/30_encoding.md R120: a byte that is no opcode, then an instruction cut off by the stream's end. -/
def Obligations.FetchFaultsOnOpcodeAndLength : Prop :=
  ∀ s : State, s.status = .running → s.pc < s.prog.size →
    (s.params.mnemonicOf (s.prog.byte s.pc) = none →
        step s = .next (s.raise (.illegalOpcode (s.prog.byte s.pc)))) ∧
      ∀ m, s.params.mnemonicOf (s.prog.byte s.pc) = some m → s.prog.size < s.pc + m.width →
        step s = .next (s.raise (.truncatedInstruction (s.prog.byte s.pc) s.pc s.prog.size))

/-- spec/30_encoding.md R121, R122: the first bad field, by increasing byte position, is the fault. -/
def Obligations.BadOperandFieldFaults : Prop :=
  ∀ (s : State) (m : Mnemonic), s.status = .running → s.pc + m.width ≤ s.prog.size →
    s.params.mnemonicOf (s.prog.byte s.pc) = some m →
    (∀ k ∈ registerFields m.format,
        (∀ j ∈ registerFields m.format, j < k → (s.prog.byte (s.pc + j)).toNat < 35) →
        35 ≤ (s.prog.byte (s.pc + k)).toNat →
        step s = .next (s.raise (.invalidRegister (s.prog.byte (s.pc + k))))) ∧
      (m.format = .rm →
        (∀ j ∈ registerFields m.format, (s.prog.byte (s.pc + j)).toNat < 35) →
        2 ≤ (s.prog.byte (s.pc + 4)).toNat →
        step s = .next (s.raise (.invalidSection (s.prog.byte (s.pc + 4)))))

/-- spec/60_exceptions.md R312: a step always answers a next state; no instruction is refused or stops the
model (that a fault is a next state is log entry 2). -/
def Obligations.EveryStepAnswersNext : Prop :=
  (∀ s, ∃ t, step s = .next t) ∧ ∀ i s, ∃ t, exec i s = .next t

/-- spec/60_exceptions.md R302: a fault is precise and final. -/
def Obligations.FaultIsPreciseAndFinal : Prop :=
  ∀ (s t : State) (f : Fault) (a : Nat), s.status = .running → step s = .next t → t.status = .faulted f a →
    t = { s with status := .faulted f s.pc } ∧ runOnce s = (t, false) ∧
      ∀ k, runFor (k + 1) t = some t

/-! ### Frames of every instruction -/

/-- spec/10_state.md R22 to R25: a register that is no destination keeps its value. -/
def Obligations.RegistersChangeOnlyAtDestinations : Prop :=
  ∀ (i : Instr) (s t : State), exec i s = .next t → ∀ r, r ∉ destinations i → t.reg r = s.reg r

/-- spec/10_state.md R30, R31: the equal flag is written by comparisons only, the remainder by DIV only. -/
def Obligations.FlagAndRemainderWriters : Prop :=
  ∀ (i : Instr) (s t : State), exec i s = .next t →
    (i.mnemonic ∉ comparisons → t.eqf = s.eqf) ∧ (i.mnemonic ≠ .div → t.rem = s.rem)

/-- spec/10_state.md R34, spec/20_memory.md R88: no step writes the instruction stream or the read-only block; the
parameters are fixed too (log entry 1). -/
def Obligations.ProgramIsNeverWritten : Prop :=
  ∀ s t : State, step s = .next t → t.prog = s.prog ∧ t.ro = s.ro ∧ t.params = s.params

/-- spec/20_memory.md R50, R61: an instruction that does not write a section leaves every byte of it, and the
block list, as they were. -/
def Obligations.MemoryFrameOfNonWriters : Prop :=
  ∀ (i : Instr) (s t : State), exec i s = .next t →
    (¬mayWriteStack i → ∀ a, t.byte? .stack a = s.byte? .stack a) ∧
      (¬mayWriteHeap i → (∀ a, t.byte? .heap a = s.byte? .heap a) ∧ t.heap.blocks = s.heap.blocks) ∧
      ∀ a, t.byte? .readOnly a = s.byte? .readOnly a

/-- spec/10_state.md R33: the output only grows at its end, and by SYSC only. -/
def Obligations.OutputOnlyGrowsBySyscalls : Prop :=
  ∀ (i : Instr) (s t : State), exec i s = .next t → s.out <+: t.out ∧ (i ≠ .sysc → t.out = s.out)

/-- spec/10_state.md R28, R32: what an instruction does to the status, and to the pc where it is no transfer. -/
def Obligations.StatusAndPcFrame : Prop :=
  ∀ (i : Instr) (s t : State), s.status = .running → exec i s = .next t →
    (t.status = .running ∨ (∃ f, t = s.raise f) ∨
        (i = .sysc ∧ s.reg sysReg = s.params.syscodes.exit ∧ t.status = .halted .exit)) ∧
      (i.mnemonic ∉ transfers → t.failed = false → t.pc = s.pc + i.width)

/-- spec/10_state.md R31, R33, R36: a program cannot observe the remainder field or the output. -/
def Obligations.RemainderAndOutputAreUnobservable : Prop :=
  ∀ (s t : State) (r : Word) (o : List Byte), step s = .next t →
    ∃ t', step { s with rem := r, out := o } = .next t' ∧ { t' with rem := t.rem, out := t.out } = t

/-! ### LOAD and arithmetic -/

/-- spec/40_load.md R141: the immediate is zero-extended. -/
def Obligations.LoadWritesUnsignedImmediate : Prop :=
  ∀ (s : State) (rd : Reg) (imm : Half),
    encode Params.reference (.load rd imm) =
        [0x01, Reg.toByte rd, imm.extractLsb' 8 8, imm.extractLsb' 0 8] ∧
      ∃ v : Word, v.toInt = imm.toNat ∧ exec (.load rd imm) s = .next ((s.advance 4).setReg rd v)

/-- spec/41_arithmetic.md R151, with the overflow law of R150. -/
def Obligations.AddResult : Prop :=
  ∀ (s : State) (ra rb rd : Reg),
    encode Params.reference (.add ra rb rd) = [0x02, Reg.toByte ra, Reg.toByte rb, Reg.toByte rd] ∧
      (s.fits (s.int ra + s.int rb) →
        ∃ v : Word, (4294967296 : Int) ∣ v.toInt - (s.int ra + s.int rb) ∧
          (InI32 (s.int ra + s.int rb) → v.toInt = s.int ra + s.int rb) ∧
          exec (.add ra rb rd) s = .next ((s.advance 4).setReg rd v)) ∧
      (¬s.fits (s.int ra + s.int rb) →
        exec (.add ra rb rd) s = .next (s.raise (.arithmeticOverflow (s.int ra + s.int rb))))

/-- spec/41_arithmetic.md R152, with the overflow law of R150. -/
def Obligations.SubResult : Prop :=
  ∀ (s : State) (ra rb rd : Reg),
    encode Params.reference (.sub ra rb rd) = [0x03, Reg.toByte ra, Reg.toByte rb, Reg.toByte rd] ∧
      (s.fits (s.int ra - s.int rb) →
        ∃ v : Word, (4294967296 : Int) ∣ v.toInt - (s.int ra - s.int rb) ∧
          (InI32 (s.int ra - s.int rb) → v.toInt = s.int ra - s.int rb) ∧
          exec (.sub ra rb rd) s = .next ((s.advance 4).setReg rd v)) ∧
      (¬s.fits (s.int ra - s.int rb) →
        exec (.sub ra rb rd) s = .next (s.raise (.arithmeticOverflow (s.int ra - s.int rb))))

/-- spec/41_arithmetic.md R153, with the overflow law of R150. -/
def Obligations.MulResult : Prop :=
  ∀ (s : State) (ra rb rd : Reg),
    encode Params.reference (.mul ra rb rd) = [0x04, Reg.toByte ra, Reg.toByte rb, Reg.toByte rd] ∧
      (s.fits (s.int ra * s.int rb) →
        ∃ v : Word, (4294967296 : Int) ∣ v.toInt - s.int ra * s.int rb ∧
          (InI32 (s.int ra * s.int rb) → v.toInt = s.int ra * s.int rb) ∧
          exec (.mul ra rb rd) s = .next ((s.advance 4).setReg rd v)) ∧
      (¬s.fits (s.int ra * s.int rb) →
        exec (.mul ra rb rd) s = .next (s.raise (.arithmeticOverflow (s.int ra * s.int rb))))

/-- spec/41_arithmetic.md R155, R156: the quotient rounded toward zero and the remainder; the two faults. -/
def Obligations.DivResult : Prop :=
  ∀ (s : State) (ra rb rd : Reg),
    encode Params.reference (.div ra rb rd) = [0x05, Reg.toByte ra, Reg.toByte rb, Reg.toByte rd] ∧
      (s.int rb = 0 → exec (.div ra rb rd) s = .next (s.raise .divideByZero)) ∧
      (s.int ra = -2147483648 → s.int rb = -1 → exec (.div ra rb rd) s = .next (s.raise .divideOverflow)) ∧
      (s.int rb ≠ 0 → ¬(s.int ra = -2147483648 ∧ s.int rb = -1) →
        ∃ q m : Word, q.toInt = (s.int ra).tdiv (s.int rb) ∧ m.toInt = (s.int ra).tmod (s.int rb) ∧
          exec (.div ra rb rd) s = .next { (s.advance 4).setReg rd q with rem := m })

/-- spec/41_arithmetic.md R150: the law of quotient and remainder, said of what DIV leaves in the state. -/
def Obligations.DivQuotientRemainderLaw : Prop :=
  ∀ (s t : State) (ra rb rd : Reg), s.status = .running → exec (.div ra rb rd) s = .next t → t.failed = false →
    s.int ra = s.int rb * t.int rd + t.rem.toInt ∧ |t.rem.toInt| < |s.int rb| ∧
      (0 ≤ s.int ra → 0 ≤ t.rem.toInt) ∧ (s.int ra ≤ 0 → t.rem.toInt ≤ 0)

/-! ### Comparisons -/

/-- spec/42_comparison.md R171 to R176: the flag holds the comparison of the signed values. -/
def Obligations.ComparisonsWriteTheFlag : Prop :=
  ∀ (s : State) (ra rb : Reg),
    encode Params.reference (.eq ra rb) = [0x06, Reg.toByte ra, Reg.toByte rb] ∧
      exec (.eq ra rb) s = .next ((s.advance 3).setEqf (decide (s.int ra = s.int rb))) ∧
      encode Params.reference (.neq ra rb) = [0x07, Reg.toByte ra, Reg.toByte rb] ∧
      exec (.neq ra rb) s = .next ((s.advance 3).setEqf (decide (s.int ra ≠ s.int rb))) ∧
      encode Params.reference (.gt ra rb) = [0x08, Reg.toByte ra, Reg.toByte rb] ∧
      exec (.gt ra rb) s = .next ((s.advance 3).setEqf (decide (s.int rb < s.int ra))) ∧
      encode Params.reference (.lt ra rb) = [0x09, Reg.toByte ra, Reg.toByte rb] ∧
      exec (.lt ra rb) s = .next ((s.advance 3).setEqf (decide (s.int ra < s.int rb))) ∧
      encode Params.reference (.gtq ra rb) = [0x0A, Reg.toByte ra, Reg.toByte rb] ∧
      exec (.gtq ra rb) s = .next ((s.advance 3).setEqf (decide (s.int rb ≤ s.int ra))) ∧
      encode Params.reference (.ltq ra rb) = [0x0B, Reg.toByte ra, Reg.toByte rb] ∧
      exec (.ltq ra rb) s = .next ((s.advance 3).setEqf (decide (s.int ra ≤ s.int rb)))

/-! ### Control flow -/

/-- spec/43_control.md R191, R195, R196: absolute jumps. -/
def Obligations.AbsoluteJumps : Prop :=
  ∀ (s : State) (r : Reg) (t : Half),
    encode Params.reference (.jmp t) = [0x0C, t.extractLsb' 8 8, t.extractLsb' 0 8] ∧
      encode Params.reference (.jeq t) = [0x0F, t.extractLsb' 8 8, t.extractLsb' 0 8] ∧
      encode Params.reference (.jez r t) = [0x10, Reg.toByte r, t.extractLsb' 8 8, t.extractLsb' 0 8] ∧
      exec (.jmp t) s = .next { s with pc := t.toNat } ∧
      exec (.jeq t) s = .next { s with pc := if s.eqf then t.toNat else s.pc + 3 } ∧
      exec (.jez r t) s = .next { s with pc := if s.int r = 0 then t.toNat else s.pc + 4 }

/-- spec/43_control.md R193, R194: the delta is applied to the fall-through pc; a negative result faults. -/
def Obligations.RelativeJumps : Prop :=
  ∀ (s : State) (d : Half),
    encode Params.reference (.jmpf d) = [0x0D, d.extractLsb' 8 8, d.extractLsb' 0 8] ∧
      encode Params.reference (.jmpb d) = [0x0E, d.extractLsb' 8 8, d.extractLsb' 0 8] ∧
      (0 ≤ (s.pc : Int) + 3 + d.toInt →
        exec (.jmpf d) s = .next { s with pc := ((s.pc : Int) + 3 + d.toInt).toNat }) ∧
      ((s.pc : Int) + 3 + d.toInt < 0 →
        exec (.jmpf d) s = .next (s.raise (.pcOutOfRange ((s.pc : Int) + 3 + d.toInt)))) ∧
      (0 ≤ (s.pc : Int) + 3 - d.toInt →
        exec (.jmpb d) s = .next { s with pc := ((s.pc : Int) + 3 - d.toInt).toNat }) ∧
      ((s.pc : Int) + 3 - d.toInt < 0 →
        exec (.jmpb d) s = .next (s.raise (.pcOutOfRange ((s.pc : Int) + 3 - d.toInt))))

/-- spec/43_control.md R197: a jump to a register's value; a negative value faults. -/
def Obligations.RegisterJump : Prop :=
  ∀ (s : State) (r : Reg),
    encode Params.reference (.rjmp r) = [0x11, Reg.toByte r] ∧
      (0 ≤ s.int r → exec (.rjmp r) s = .next { s with pc := (s.int r).toNat }) ∧
      (s.int r < 0 → exec (.rjmp r) s = .next (s.raise (.pcOutOfRange (s.int r))))

/-- spec/43_control.md R201, R202: the frame CALL builds at the end of the stack buffer, and its faults in the
order of its pseudocode. -/
def Obligations.CallResult : Prop :=
  ∀ (s : State) (a : Half), s.stack.wf →
    encode Params.reference (.call a) = [0x12, a.extractLsb' 8 8, a.extractLsb' 0 8] ∧
      (s.pc + 3 ≤ 2147483647 → s.stack.size + 8 ≤ s.params.memLimit → s.fits (s.int spReg + 4) →
        s.fits (s.int spReg + 8) →
        ∃ t, exec (.call a) s = .next t ∧ t.pc = a.toNat ∧
          (∃ ret : Word, ret.toInt = s.pc + 3 ∧
            t.stack.toBytes = s.stack.toBytes ++ wordBytes ret ++ wordBytes (s.reg bpReg)) ∧
          (4294967296 : Int) ∣ t.int spReg - (s.int spReg + 8) ∧ t.reg bpReg = t.reg spReg ∧
          (∀ r, r ≠ spReg → r ≠ bpReg → t.reg r = s.reg r) ∧
          t = { s with pc := t.pc, stack := t.stack, x := t.x }) ∧
      (2147483647 < s.pc + 3 → exec (.call a) s = .next (s.raise (.pcOutOfRange (s.pc + 3)))) ∧
      (s.pc + 3 ≤ 2147483647 → s.params.memLimit < s.stack.size + 4 →
        exec (.call a) s = .next (s.raise (.resourceExhausted .stack (s.stack.size + 4)))) ∧
      (s.pc + 3 ≤ 2147483647 → s.stack.size + 4 ≤ s.params.memLimit → ¬s.fits (s.int spReg + 4) →
        exec (.call a) s = .next (s.raise (.arithmeticOverflow (s.int spReg + 4)))) ∧
      (s.pc + 3 ≤ 2147483647 → s.stack.size + 4 ≤ s.params.memLimit → s.fits (s.int spReg + 4) →
        s.params.memLimit < s.stack.size + 8 →
        exec (.call a) s = .next (s.raise (.resourceExhausted .stack (s.stack.size + 8)))) ∧
      (s.pc + 3 ≤ 2147483647 → s.stack.size + 8 ≤ s.params.memLimit → s.fits (s.int spReg + 4) →
        ¬s.fits (s.int spReg + 8) →
        exec (.call a) s = .next (s.raise (.arithmeticOverflow (s.int spReg + 8))))

/-- spec/43_control.md R204: RET pops BP, then the return address; with too few bytes a pop gives 0 and leaves
the stack as it is (spec/20_memory.md R64); and its faults in the order of its pseudocode. -/
def Obligations.RetResult : Prop :=
  encode Params.reference .ret = [0x13] ∧
    (∀ (s : State) (base : List Byte) (r bp : Word), s.fits (s.int spReg - 4) → s.fits (s.int spReg - 8) →
      (s.stack.toBytes = base ++ wordBytes r ++ wordBytes bp ∧ 0 ≤ r.toInt) ∨
        (s.stack.toBytes = base ++ wordBytes bp ∧ base.length < 4 ∧ r = 0#32) ∨
        (s.stack.toBytes = base ∧ base.length < 4 ∧ r = 0#32 ∧ bp = 0#32) →
      ∃ t, exec .ret s = .next t ∧ t.pc = r.toInt.toNat ∧ t.stack.toBytes = base ∧ t.reg bpReg = bp ∧
        (4294967296 : Int) ∣ t.int spReg - (s.int spReg - 8) ∧
        (∀ q, q ≠ spReg → q ≠ bpReg → t.reg q = s.reg q) ∧
        t = { s with pc := t.pc, stack := t.stack, x := t.x }) ∧
    ∀ s : State,
      (¬s.fits (s.int spReg - 4) → exec .ret s = .next (s.raise (.arithmeticOverflow (s.int spReg - 4)))) ∧
        (s.fits (s.int spReg - 4) → ¬s.fits (s.int spReg - 8) →
          exec .ret s = .next (s.raise (.arithmeticOverflow (s.int spReg - 8)))) ∧
        (s.fits (s.int spReg - 4) → s.fits (s.int spReg - 8) →
          ∀ (base : List Byte) (r bp : Word), s.stack.toBytes = base ++ wordBytes r ++ wordBytes bp →
            r.toInt < 0 → exec .ret s = .next (s.raise (.pcOutOfRange r.toInt)))

/-- spec/43_control.md R203: after a CALL that did not fault, a RET in any state whose stack and SP are as the
CALL left them comes back to the instruction after the CALL, with BP, SP and the stack as before it. -/
def Obligations.RetUndoesCall : Prop :=
  ∀ (s t u : State) (a : Half), s.status = .running → s.stack.wf → exec (.call a) s = .next t →
    t.failed = false → u.stack = t.stack → u.reg spReg = t.reg spReg → u.params = s.params →
    ∃ v, exec .ret u = .next v ∧ v.status = u.status ∧ v.pc = s.pc + 3 ∧ v.reg bpReg = s.reg bpReg ∧
      v.reg spReg = s.reg spReg ∧ v.stack = s.stack

/-! ### Loads and stores -/

/-- spec/44_memory_ops.md R221: four little-endian bytes, or a fault below 0 or past the section's end
(spec/20_memory.md R56). -/
def Obligations.LwResult : Prop :=
  ∀ (s : State) (r ra : Reg) (off : Byte) (sec : Section),
    encode Params.reference (.lw r ra off sec) =
        [0x15, Reg.toByte r, Reg.toByte ra, off, sec.toByte] ∧
      (∀ ea : Nat, s.int ra + off.toNat = ea → ea + 4 ≤ (s.buffer sec).size →
        ∃ v : Word,
          v.toNat = le32 ((s.buffer sec).byte ea) ((s.buffer sec).byte (ea + 1)) ((s.buffer sec).byte (ea + 2))
            ((s.buffer sec).byte (ea + 3)) ∧
          exec (.lw r ra off sec) s = .next ((s.advance 5).setReg r v)) ∧
      (s.int ra + off.toNat < 0 ∨ ((s.buffer sec).size : Int) < s.int ra + off.toNat + 4 →
        exec (.lw r ra off sec) s =
          .next (s.raise (.addressOutOfRange (spaceOf sec) (s.int ra + off.toNat) 4)))

/-- spec/44_memory_ops.md R223: one byte, zero-extended, or a fault (spec/20_memory.md R56). -/
def Obligations.LbResult : Prop :=
  ∀ (s : State) (r ra : Reg) (off : Byte) (sec : Section),
    encode Params.reference (.lb r ra off sec) =
        [0x17, Reg.toByte r, Reg.toByte ra, off, sec.toByte] ∧
      (∀ ea : Nat, s.int ra + off.toNat = ea → ea + 1 ≤ (s.buffer sec).size →
        ∃ v : Word,
          v.toInt = ((s.buffer sec).byte ea).toNat ∧
          exec (.lb r ra off sec) s = .next ((s.advance 5).setReg r v)) ∧
      (s.int ra + off.toNat < 0 ∨ ((s.buffer sec).size : Int) < s.int ra + off.toNat + 1 →
        exec (.lb r ra off sec) s =
          .next (s.raise (.addressOutOfRange (spaceOf sec) (s.int ra + off.toNat) 1)))

/-- spec/44_memory_ops.md R222, spec/20_memory.md R57: the register's four bytes are stored, a stack store growing
the stack; or a fault below 0, past the heap's end, or past the stack's limit. -/
def Obligations.SwResult : Prop :=
  ∀ (s : State) (r ra : Reg) (off : Byte) (sec : Section), (s.buffer sec).wf →
    encode Params.reference (.sw r ra off sec) =
        [0x14, Reg.toByte r, Reg.toByte ra, off, sec.toByte] ∧
      (∀ ea : Nat, s.int ra + off.toNat = ea → (sec = .heap → ea + 4 ≤ s.heap.hbuf.size) →
        (sec = .stack → ea + 4 ≤ s.stack.size ∨ ea + 4 ≤ s.params.memLimit) →
        ∃ t, exec (.sw r ra off sec) s = .next t ∧ storedAt s t sec ea (wordBytes (s.reg r))) ∧
      (s.int ra + off.toNat < 0 →
        exec (.sw r ra off sec) s =
          .next (s.raise (.addressOutOfRange (spaceOf sec) (s.int ra + off.toNat) 4))) ∧
      (sec = .heap → 0 ≤ s.int ra + off.toNat → (s.heap.hbuf.size : Int) < s.int ra + off.toNat + 4 →
        exec (.sw r ra off sec) s =
          .next (s.raise (.addressOutOfRange .heap (s.int ra + off.toNat) 4))) ∧
      ∀ ea : Nat, sec = .stack → s.int ra + off.toNat = ea → s.stack.size < ea + 4 →
        s.params.memLimit < ea + 4 →
        exec (.sw r ra off sec) s = .next (s.raise (.resourceExhausted .stack (ea + 4)))

/-- spec/44_memory_ops.md R224, spec/20_memory.md R57: the register's low byte is stored, as SW stores its word. -/
def Obligations.SbResult : Prop :=
  ∀ (s : State) (r ra : Reg) (off : Byte) (sec : Section), (s.buffer sec).wf →
    encode Params.reference (.sb r ra off sec) =
        [0x16, Reg.toByte r, Reg.toByte ra, off, sec.toByte] ∧
      (∀ ea : Nat, s.int ra + off.toNat = ea → (sec = .heap → ea + 1 ≤ s.heap.hbuf.size) →
        (sec = .stack → ea + 1 ≤ s.stack.size ∨ ea + 1 ≤ s.params.memLimit) →
        ∃ t, exec (.sb r ra off sec) s = .next t ∧ storedAt s t sec ea [BitVec.ofNat 8 (s.reg r).toNat]) ∧
      (s.int ra + off.toNat < 0 →
        exec (.sb r ra off sec) s =
          .next (s.raise (.addressOutOfRange (spaceOf sec) (s.int ra + off.toNat) 1))) ∧
      (sec = .heap → 0 ≤ s.int ra + off.toNat → (s.heap.hbuf.size : Int) < s.int ra + off.toNat + 1 →
        exec (.sb r ra off sec) s =
          .next (s.raise (.addressOutOfRange .heap (s.int ra + off.toNat) 1))) ∧
      ∀ ea : Nat, sec = .stack → s.int ra + off.toNat = ea → s.stack.size < ea + 1 →
        s.params.memLimit < ea + 1 →
        exec (.sb r ra off sec) s = .next (s.raise (.resourceExhausted .stack (ea + 1)))

/-- spec/20_memory.md R53: the four bytes of a word, the least significant first. -/
def Obligations.WordBytesAreLittleEndian : Prop :=
  ∀ w : Word, ∃ b0 b1 b2 b3, wordBytes w = [b0, b1, b2, b3] ∧ w.toNat = le32 b0 b1 b2 b3

/-! ### Push, pop and the stack unit -/

/-- spec/44_memory_ops.md R232: the register's old value is appended, SP moves up by 4; or a fault. -/
def Obligations.PushResult : Prop :=
  ∀ (s : State) (r : Reg), s.stack.wf →
    encode Params.reference (.push r) = [0x1E, Reg.toByte r] ∧
      (s.stack.size + 4 ≤ s.params.memLimit → s.fits (s.int spReg + 4) →
        ∃ t, exec (.push r) s = .next t ∧ t.stack.toBytes = s.stack.toBytes ++ wordBytes (s.reg r) ∧
          (4294967296 : Int) ∣ t.int spReg - (s.int spReg + 4) ∧ (∀ q, q ≠ spReg → t.reg q = s.reg q) ∧
          t = { s with pc := s.pc + 2, stack := t.stack, x := t.x }) ∧
      (s.params.memLimit < s.stack.size + 4 →
        exec (.push r) s = .next (s.raise (.resourceExhausted .stack (s.stack.size + 4)))) ∧
      (s.stack.size + 4 ≤ s.params.memLimit → ¬s.fits (s.int spReg + 4) →
        exec (.push r) s = .next (s.raise (.arithmeticOverflow (s.int spReg + 4))))

/-- spec/44_memory_ops.md R233, R234: the last word of the stack goes to the register, SP moves down by 4 before
the register is written; a short stack gives 0 and stays (spec/20_memory.md R64); or a fault. -/
def Obligations.PopResult : Prop :=
  ∀ (s : State) (r : Reg),
    encode Params.reference (.pop r) = [0x1F, Reg.toByte r] ∧
      (∀ (base : List Byte) (v : Word), s.fits (s.int spReg - 4) →
        s.stack.toBytes = base ++ wordBytes v ∨ (s.stack.toBytes = base ∧ base.length < 4 ∧ v = 0#32) →
        ∃ t, exec (.pop r) s = .next t ∧ t.reg r = v ∧ t.stack.toBytes = base ∧
          (r ≠ spReg → (4294967296 : Int) ∣ t.int spReg - (s.int spReg - 4)) ∧
          (∀ q, q ≠ spReg → q ≠ r → t.reg q = s.reg q) ∧
          t = { s with pc := s.pc + 2, stack := t.stack, x := t.x }) ∧
      (¬s.fits (s.int spReg - 4) →
        exec (.pop r) s = .next (s.raise (.arithmeticOverflow (s.int spReg - 4))))

/-- spec/20_memory.md R67: a pop after a push gives the value back and the stack exactly as before; the same of
the byte operations (R63, R65). -/
def Obligations.StackUnitRoundTrip : Prop :=
  ∀ (p : Params) (st st' : Memory), st.wf →
    (∀ v, pushWord p v st = .ok st' → popWord st' = (v, st)) ∧
      ∀ b, pushByte p b st = .ok st' → popByte st' = (b, st)

/-! ### Bitwise -/

/-- spec/45_bitwise.md R251: the complement, which is `-x - 1`. -/
def Obligations.NotResult : Prop :=
  ∀ (s : State) (r : Reg),
    encode Params.reference (.not r) = [0x18, Reg.toByte r] ∧
      ∃ v : Word, v.toInt = -s.int r - 1 ∧ exec (.not r) s = .next ((s.advance 2).setReg r v)

/-- spec/45_bitwise.md R252, R253: the amount is read unsigned and not masked; 32 or more gives 0. -/
def Obligations.ShiftLeftResult : Prop :=
  ∀ (s : State) (ra rb : Reg),
    encode Params.reference (.shiftl ra rb) = [0x19, Reg.toByte ra, Reg.toByte rb] ∧
    ∃ v : Word,
      v.toNat = (if 32 ≤ (s.reg rb).toNat then 0 else (s.reg ra).toNat * 2 ^ (s.reg rb).toNat % 4294967296) ∧
      exec (.shiftl ra rb) s = .next ((s.advance 3).setReg ra v)

/-- spec/45_bitwise.md R252, R254: arithmetic shifts round toward minus infinity, logical ones shift the
pattern; an amount of 32 or more gives 0 for both. -/
def Obligations.ShiftRightResult : Prop :=
  ∀ (s : State) (ra rb : Reg),
    encode Params.reference (.shiftr ra rb) = [0x1A, Reg.toByte ra, Reg.toByte rb] ∧
    ∃ v : Word,
      (32 ≤ (s.reg rb).toNat → v.toInt = 0) ∧
      ((s.reg rb).toNat < 32 → s.params.shiftr = .arithmetic →
        v.toInt = Int.fdiv (s.int ra) (2 ^ (s.reg rb).toNat)) ∧
      ((s.reg rb).toNat < 32 → s.params.shiftr = .logical →
        v.toNat = (s.reg ra).toNat / 2 ^ (s.reg rb).toNat) ∧
      exec (.shiftr ra rb) s = .next ((s.advance 3).setReg ra v)

/-- spec/45_bitwise.md R255, R256: on the 32-bit patterns. -/
def Obligations.AndOrResults : Prop :=
  ∀ (s : State) (ra rb : Reg),
    encode Params.reference (.and ra rb) = [0x1B, Reg.toByte ra, Reg.toByte rb] ∧
    encode Params.reference (.or ra rb) = [0x1C, Reg.toByte ra, Reg.toByte rb] ∧
    ∃ v w : Word, v.toNat = (s.reg ra).toNat &&& (s.reg rb).toNat ∧
      w.toNat = (s.reg ra).toNat ||| (s.reg rb).toNat ∧
      exec (.and ra rb) s = .next ((s.advance 3).setReg ra v) ∧
      exec (.or ra rb) s = .next ((s.advance 3).setReg ra w)

/-- spec/45_bitwise.md R250, R255, R256: AND and OR complete in every state, whatever the registers: bit by bit
the destination holds the and, the or, of the two old values, and no other register, not the flag and no other part
of the state but the pc changes. -/
def Obligations.AndOrCompleteBitByBit : Prop :=
  ∀ (s : State) (ra rb : Reg),
    (∃ t, exec (.and ra rb) s = .next t ∧ t.pc = s.pc + 3 ∧
      (∀ k, (t.reg ra).getLsbD k = ((s.reg ra).getLsbD k && (s.reg rb).getLsbD k)) ∧
      (∀ q, q ≠ ra → t.reg q = s.reg q) ∧ t = { s with pc := t.pc, x := t.x }) ∧
    ∃ t, exec (.or ra rb) s = .next t ∧ t.pc = s.pc + 3 ∧
      (∀ k, (t.reg ra).getLsbD k = ((s.reg ra).getLsbD k || (s.reg rb).getLsbD k)) ∧
      (∀ q, q ≠ ra → t.reg q = s.reg q) ∧ t = { s with pc := t.pc, x := t.x }

/-! ### Syscalls -/

/-- spec/46_syscall.md R273, R275, R279: Nop, Exit, and a code of no syscall. -/
def Obligations.NopExitAndUnknownSyscalls : Prop :=
  encode Params.reference .sysc = [0x1D] ∧
  ∀ s : State, s.params.syscodesDistinct →
    (s.reg sysReg = s.params.syscodes.nop → exec .sysc s = .next { s with pc := s.pc + 1 }) ∧
      (s.reg sysReg = s.params.syscodes.exit →
        exec .sysc s = .next { s with pc := s.pc + 1, status := .halted .exit }) ∧
      (s.reg sysReg ∉ s.params.syscodes.toList →
        exec .sysc s = .next (s.raise (.unknownSyscall (s.int sysReg))))

/-- spec/20_memory.md R77, spec/46_syscall.md R276: where no free block is large enough, a block of zeros is
appended and its start goes to register 32; past the limit the allocation faults. -/
def Obligations.AllocAppendsBlock : Prop :=
  ∀ (s : State) (a : Nat), s.params.WellFormed → s.reg sysReg = s.params.syscodes.alloc → s.heap.hbuf.wf →
    0 < s.int argReg → s.params.heapAlign ∣ a → s.int argReg ≤ a → (a : Int) < s.int argReg + s.params.heapAlign →
    (∀ b ∈ s.heap.blocks, b.isFree = true → b.size < a) →
    (s.heap.hbuf.size + a ≤ s.params.memLimit →
        ∃ t, exec .sysc s = .next t ∧ t.int sysReg = s.heap.hbuf.size ∧
          t.heap.blocks = s.heap.blocks ++ [{ start := s.heap.hbuf.size, size := a, isFree := false }] ∧
          t.heap.hbuf.toBytes = s.heap.hbuf.toBytes ++ List.replicate a 0#8 ∧
          (∀ r, r ≠ sysReg → t.reg r = s.reg r) ∧
          t = { s with pc := s.pc + 1, x := t.x, heap := t.heap }) ∧
      (s.params.memLimit < s.heap.hbuf.size + a →
        exec .sysc s = .next (s.raise (.resourceExhausted .heap (s.heap.hbuf.size + a))))

/-- spec/20_memory.md R75, R76, spec/46_syscall.md R276: the first free block that is large enough is marked used,
neither split nor cleared. -/
def Obligations.AllocReusesFirstFit : Prop :=
  ∀ (s : State) (a : Nat) (pre post : List Block) (b : Block), s.params.WellFormed →
    s.reg sysReg = s.params.syscodes.alloc → 0 < s.int argReg → s.params.heapAlign ∣ a → s.int argReg ≤ a →
    (a : Int) < s.int argReg + s.params.heapAlign → s.heap.blocks = pre ++ b :: post →
    (∀ c ∈ pre, c.isFree = true → c.size < a) → b.isFree = true → a ≤ b.size → b.start ≤ 2147483647 →
    ∃ v : Word, v.toInt = b.start ∧
      exec .sysc s =
        .next
          ({ s with
              pc := s.pc + 1
              heap := { s.heap with blocks := pre ++ { b with isFree := false } :: post } }.setReg sysReg v)

/-- spec/20_memory.md R74: a size of 0 or less is refused. -/
def Obligations.AllocRefusesNonPositiveSize : Prop :=
  (∀ (p : Params) (n : Int) (h : Heap), n ≤ 0 → heapAlloc p n h = .error (.invalidAllocSize n)) ∧
    ∀ s : State, s.params.syscodesDistinct → s.reg sysReg = s.params.syscodes.alloc → s.int argReg ≤ 0 →
      exec .sysc s = .next (s.raise (.invalidAllocSize (s.int argReg)))

/-- spec/20_memory.md R79, spec/46_syscall.md R277: the block at the pointer is marked free, and the maximal
trailing run of free blocks goes, with its bytes; no block there, or a free one, is a fault. -/
def Obligations.FreeResult : Prop :=
  ∀ s : State, s.params.syscodesDistinct → s.reg sysReg = s.params.syscodes.free →
    ((∀ c ∈ s.heap.blocks, (c.start : Int) ≠ s.int argReg) →
        exec .sysc s = .next (s.raise (.invalidFree (s.int argReg)))) ∧
      ∀ (pre post : List Block) (b : Block), s.heap.blocks = pre ++ b :: post →
        (∀ c ∈ pre ++ post, (c.start : Int) ≠ s.int argReg) → (b.start : Int) = s.int argReg →
        (b.isFree = true → exec .sysc s = .next (s.raise (.doubleFree (s.int argReg)))) ∧
          ∀ kept freed : List Block, b.isFree = false →
            pre ++ { b with isFree := true } :: post = kept ++ freed → (∀ c ∈ freed, c.isFree = true) →
            (∀ c, kept.getLast? = some c → c.isFree = false) →
            ∃ t, exec .sysc s = .next t ∧ t.heap.blocks = kept ∧
              t.heap.hbuf.toBytes = s.heap.hbuf.toBytes.take (s.heap.hbuf.size - sizeSum freed) ∧
              t = { s with pc := s.pc + 1, heap := t.heap }

/-- spec/20_memory.md R80: freeing a block with a used block after it shrinks nothing. -/
def Obligations.FreeOfInteriorBlockKeepsLength : Prop :=
  ∀ (s : State) (pre post : List Block) (b : Block), s.Inv → s.reg sysReg = s.params.syscodes.free →
    s.heap.blocks = pre ++ b :: post → (b.start : Int) = s.int argReg → b.isFree = false →
    (∃ c ∈ post, c.isFree = false) →
    ∃ t, exec .sysc s = .next t ∧ t.heap.hbuf = s.heap.hbuf ∧
      t.heap.blocks = pre ++ { b with isFree := true } :: post ∧ t = { s with pc := s.pc + 1, heap := t.heap }

/-- spec/20_memory.md R82: the heap laws, of `heap_alloc` and `heap_free` on an empty heap. -/
def Obligations.HeapLawsOnEmptyHeap : Prop :=
  ∀ (p : Params) (n m : Int) (a b : Nat) (h1 h2 : Heap), p.WellFormed →
    heapAlloc p n { blocks := [], hbuf := Memory.empty } = .ok (a, h1) →
    (∃ h, heapFree a h1 = .ok h ∧ h.hbuf.size = 0) ∧
      (heapAlloc p m h1 = .ok (b, h2) →
        (∃ h h', heapFree b h2 = .ok h ∧ h.hbuf.size < h2.hbuf.size ∧ heapFree a h = .ok h' ∧
            h'.hbuf.size < h.hbuf.size) ∧
          ∃ h h', heapFree a h2 = .ok h ∧ h.hbuf.size = h2.hbuf.size ∧ heapFree b h = .ok h' ∧
            h'.hbuf.size = 0)

/-- spec/46_syscall.md R272, R274, R278: CPrint and PrintString emit the string at the offset, without its NUL,
and the terminator; and their faults, in order. The UTF-8 test is that of log entry 7. -/
def Obligations.PrintSyscalls : Prop :=
  ∀ (s : State) (m : Memory) (sp : Space), s.params.syscodesDistinct →
    (s.reg sysReg = s.params.syscodes.cprint ∧ m = s.ro ∧ sp = .readOnly) ∨
      (s.reg sysReg = s.params.syscodes.printString ∧ m = s.heap.hbuf ∧ sp = .heap) →
    (s.int argReg < 0 ∨ (m.size : Int) ≤ s.int argReg →
        exec .sysc s = .next (s.raise (.addressOutOfRange sp (s.int argReg) 1))) ∧
      ∀ o : Nat, s.int argReg = o → o < m.size →
        ((∀ a, o ≤ a → m.byte? a ≠ some 0#8) →
            exec .sysc s = .next (s.raise (.unterminatedString sp o))) ∧
          ∀ str : List Byte, (∀ k < str.length, m.byte? (o + k) = str[k]?) → (∀ b ∈ str, b ≠ 0#8) →
            m.byte? (o + str.length) = some 0#8 →
            (validUtf8 str = false → exec .sysc s = .next (s.raise (.invalidUtf8 sp o))) ∧
              (validUtf8 str = true →
                exec .sysc s =
                  .next { s with pc := s.pc + 1, out := s.out ++ str ++ s.params.printTerminator })

/-- spec/93_implementation_defined.md G1: the UTF-8 test accepts exactly the concatenations of the shortest-form
encodings of scalar values. The definition of UTF-8 is from general knowledge (log entry 7). -/
def Obligations.ValidUtf8IffScalarEncodings : Prop :=
  ∀ bs : List Byte,
    validUtf8 bs = true ↔
      ∃ cs : List Nat, (∀ c ∈ cs, c < 0xD800 ∨ (0xE000 ≤ c ∧ c ≤ 0x10FFFF)) ∧ bs = cs.flatMap utf8Encode

/-! ### The loader -/

/-- spec/70_reset_and_hazards.md R343, R344: the checks in their order, then the installation; an error changes
nothing. -/
def Obligations.LoaderChecksInOrder : Prop :=
  ∀ (img : List Byte) (s : State),
    (img.length < 64 → loadBytecode img s = (s, .error .truncatedHeader)) ∧
      (64 ≤ img.length → img.take 4 ≠ s.params.magic.toList → loadBytecode img s = (s, .error .badMagic)) ∧
      ∀ (b0 b1 b2 b3 : Byte) (tail : List Byte), 64 ≤ img.length →
        img = s.params.magic.toList ++ [b0, b1, b2, b3] ++ tail →
        (img.length < 64 + le32 b0 b1 b2 b3 → loadBytecode img s = (s, .error .roBlockOverrun)) ∧
          (64 + le32 b0 b1 b2 b3 ≤ img.length →
            loadBytecode img s = (installImage s.params img, .ok ()))

/-- spec/70_reset_and_hazards.md R342, R345: what a successful load installs, whatever the state before. -/
def Obligations.LoaderInstallsImage : Prop :=
  ∀ (img : List Byte) (s : State) (b0 b1 b2 b3 : Byte) (pad ro prog : List Byte),
    img = s.params.magic.toList ++ [b0, b1, b2, b3] ++ pad ++ ro ++ prog → pad.length = 56 →
    ro.length = le32 b0 b1 b2 b3 →
    ∃ t, loadBytecode img s = (t, .ok ()) ∧ t.ro.toBytes = ro ∧ t.prog.toBytes = prog ∧
      t = { State.initial s.params with ro := t.ro, prog := t.prog }

/-- spec/70_reset_and_hazards.md R347: an image of 64 bytes with no read-only block, and a machine never loaded,
end normally at their first step. -/
def Obligations.EmptyProgramEndsNormally : Prop :=
  (∀ (img : List Byte) (s : State) (pad : List Byte),
      img = s.params.magic.toList ++ [0, 0, 0, 0] ++ pad → img.length = 64 →
      step (loadBytecode img s).1 = .next { State.initial s.params with status := .halted .endOfStream }) ∧
    ∀ p, step (State.initial p) = .next { State.initial p with status := .halted .endOfStream }
end

