-- ==== Sys2Proof/Laws/PerInstr.lean ====
section
/-! SUPPORT. Laws said of every instruction as syntax, one lemma per constructor. -/

namespace Sys2Proof.Laws.EncodedWidth

/-- An encoded instruction has the width its opcode gives it (spec/30_encoding.md R100, R102), whatever the
opcode assignment. -/
def Statement (i : Instr) : Prop := ∀ p : Params, (encode p i).length = i.width

theorem load (rd : Reg) (imm : Half) : Statement (.load rd imm) := fun _ => rfl
theorem add (ra rb rd : Reg) : Statement (.add ra rb rd) := fun _ => rfl
theorem sub (ra rb rd : Reg) : Statement (.sub ra rb rd) := fun _ => rfl
theorem mul (ra rb rd : Reg) : Statement (.mul ra rb rd) := fun _ => rfl
theorem div (ra rb rd : Reg) : Statement (.div ra rb rd) := fun _ => rfl
theorem eq (ra rb : Reg) : Statement (.eq ra rb) := fun _ => rfl
theorem neq (ra rb : Reg) : Statement (.neq ra rb) := fun _ => rfl
theorem gt (ra rb : Reg) : Statement (.gt ra rb) := fun _ => rfl
theorem lt (ra rb : Reg) : Statement (.lt ra rb) := fun _ => rfl
theorem gtq (ra rb : Reg) : Statement (.gtq ra rb) := fun _ => rfl
theorem ltq (ra rb : Reg) : Statement (.ltq ra rb) := fun _ => rfl
theorem jmp (t : Half) : Statement (.jmp t) := fun _ => rfl
theorem jmpf (d : Half) : Statement (.jmpf d) := fun _ => rfl
theorem jmpb (d : Half) : Statement (.jmpb d) := fun _ => rfl
theorem jeq (t : Half) : Statement (.jeq t) := fun _ => rfl
theorem jez (r : Reg) (t : Half) : Statement (.jez r t) := fun _ => rfl
theorem rjmp (r : Reg) : Statement (.rjmp r) := fun _ => rfl
theorem call (t : Half) : Statement (.call t) := fun _ => rfl
theorem ret : Statement .ret := fun _ => rfl
theorem sw (r ra : Reg) (off : Byte) (sec : Section) : Statement (.sw r ra off sec) := fun _ => rfl
theorem lw (r ra : Reg) (off : Byte) (sec : Section) : Statement (.lw r ra off sec) := fun _ => rfl
theorem sb (r ra : Reg) (off : Byte) (sec : Section) : Statement (.sb r ra off sec) := fun _ => rfl
theorem lb (r ra : Reg) (off : Byte) (sec : Section) : Statement (.lb r ra off sec) := fun _ => rfl
theorem not (r : Reg) : Statement (.not r) := fun _ => rfl
theorem shiftl (ra rb : Reg) : Statement (.shiftl ra rb) := fun _ => rfl
theorem shiftr (ra rb : Reg) : Statement (.shiftr ra rb) := fun _ => rfl
theorem and (ra rb : Reg) : Statement (.and ra rb) := fun _ => rfl
theorem or (ra rb : Reg) : Statement (.or ra rb) := fun _ => rfl
theorem sysc : Statement .sysc := fun _ => rfl
theorem push (r : Reg) : Statement (.push r) := fun _ => rfl
theorem pop (r : Reg) : Statement (.pop r) := fun _ => rfl

end Sys2Proof.Laws.EncodedWidth
end

