-- ==== Sys2Proof/Laws/Decode.lean ====
section
/-! SUPPORT. Laws of the opcode map and of the operand fields. -/

namespace Sys2Proof

/-- A mnemonic's place in the list of all is its index. -/
theorem Mnemonic.all_getElem? (m : Mnemonic) : Mnemonic.all[m.index.val]? = some m := by
  cases m <;> rfl

theorem Mnemonic.mem_all (m : Mnemonic) : m ∈ Mnemonic.all :=
  List.mem_of_getElem? m.all_getElem?

theorem Mnemonic.index_injective {m n : Mnemonic} (h : m.index = n.index) : m = n := by
  have := m.all_getElem?
  rw [h, n.all_getElem?] at this
  exact (Option.some.inj this).symm

/-- Under a distinct assignment an opcode byte names one mnemonic (spec/30_encoding.md R111). -/
theorem Params.opcode_injective {p : Params} (hp : p.opcodesDistinct) {m n : Mnemonic}
    (h : p.opcode m = p.opcode n) : m = n := by
  apply Mnemonic.index_injective
  have hi : m.index.val < p.opcodes.toList.length := by simp
  have hj : n.index.val < p.opcodes.toList.length := by simp
  have he : p.opcodes.toList[m.index.val] = p.opcodes.toList[n.index.val] := by
    simpa [Params.opcode] using h
  exact Fin.ext ((List.Nodup.getElem_inj_iff hp).1 he)

theorem Params.mnemonicOf_opcode {p : Params} (hp : p.opcodesDistinct) (m : Mnemonic) :
    p.mnemonicOf (p.opcode m) = some m := by
  cases hf : p.mnemonicOf (p.opcode m) with
  | none =>
    have := List.find?_eq_none.1 hf m m.mem_all
    simp at this
  | some n =>
    have h : p.opcode n = p.opcode m := by simpa using List.find?_some hf
    rw [Params.opcode_injective hp h]

theorem Params.opcode_of_mnemonicOf {p : Params} {b : Byte} {m : Mnemonic} (h : p.mnemonicOf b = some m) :
    p.opcode m = b := by simpa using List.find?_some h

/-! ### Fields -/

@[simp] theorem Reg.ofByte_toByte (r : Reg) : Reg.ofByte (Reg.toByte r) = .ok r := by
  have h : r.val < 256 := by omega
  have hm : (BitVec.ofNat 8 r.val).toNat = r.val := by simp [Nat.mod_eq_of_lt h]
  simp [Reg.ofByte, Reg.toByte, Nat.mod_eq_of_lt h]

theorem Reg.toByte_of_ofByte {b : Byte} {r : Reg} (h : Reg.ofByte b = .ok r) : Reg.toByte r = b := by
  unfold Reg.ofByte at h
  split at h
  · cases h; simp [Reg.toByte]
  · cases h

theorem Reg.ofByte_bad {b : Byte} (h : 35 ≤ b.toNat) : Reg.ofByte b = .error (.badRegister b) := by
  simp [Reg.ofByte, Nat.not_lt.2 h]

theorem Reg.ofByte_good {b : Byte} (h : b.toNat < 35) : Reg.ofByte b = .ok ⟨b.toNat, h⟩ := by
  simp [Reg.ofByte, h]

@[simp] theorem Section.ofByte_toByte (s : Section) : Section.ofByte s.toByte = .ok s := by
  cases s <;> rfl

theorem Section.toByte_of_ofByte {b : Byte} {s : Section} (h : Section.ofByte b = .ok s) : s.toByte = b := by
  unfold Section.ofByte at h
  split at h
  · rename_i hb; cases h; exact hb.symm
  · split at h
    · rename_i hb; cases h; exact hb.symm
    · cases h

theorem Section.ofByte_bad {b : Byte} (h : 2 ≤ b.toNat) : Section.ofByte b = .error (.badSection b) := by
  have h0 : b ≠ 0#8 := by rintro rfl; simp at h
  have h1 : b ≠ 1#8 := by rintro rfl; simp at h
  simp [Section.ofByte, h0, h1]

/-- The two bytes of a 16-bit field join to it again, high byte first (spec/20_memory.md R54). -/
@[simp] theorem halfBytes_join (h : Half) : h.extractLsb' 8 8 ++ h.extractLsb' 0 8 = h := by
  apply BitVec.eq_of_getLsbD_eq
  intro i hi
  rw [BitVec.getLsbD_append]
  by_cases h8 : i < 8
  · simp [h8]
  · have e : 8 + (i - 8) = i := by omega
    have : i - 8 < 8 := by omega
    simp [h8, this, e]

end Sys2Proof
end

