-- ==== Sys2Proof/Laws/Memory.lean ====
section
/-! SUPPORT. The laws of byte sequences: every operation keeps the canonical form, what each reads back, and
that canonical sequences with the same bytes are equal. -/

namespace Sys2Proof.Machine

/-! ### Cells -/

/-- The cells' part of the canonical form. -/
abbrev CellsSorted (cs : List Host.Cell) : Prop := cs.Pairwise fun c d => c.1 < d.1

theorem cellAt_eq_zero {cs : List Host.Cell} {a : Nat} (h : ∀ c ∈ cs, c.1 ≠ a) : cellAt cs a = 0#8 := by
  induction cs with
  | nil => rfl
  | cons c cs ih =>
    have hc := h c (by simp)
    simp only [cellAt, hc, if_false]
    exact ih fun d hd => h d (by simp [hd])

theorem cellAt_of_mem {cs : List Host.Cell} (hs : CellsSorted cs) {a : Nat} {b : Byte}
    (h : (a, b) ∈ cs) : cellAt cs a = b := by
  induction cs with
  | nil => simp at h
  | cons c cs ih =>
    obtain ⟨k, d⟩ := c
    rw [CellsSorted, List.pairwise_cons] at hs
    rcases List.mem_cons.1 h with h | h
    · cases h; simp [cellAt]
    · have := hs.1 _ h
      have hne : k ≠ a := by simpa using Nat.ne_of_lt this
      simp [cellAt, hne, ih hs.2 h]

theorem mem_putCell {cs : List Host.Cell} {a : Nat} {b : Byte} {c : Host.Cell}
    (h : c ∈ putCell cs a b) : c ∈ cs ∨ (c = (a, b) ∧ b ≠ 0#8) := by
  induction cs with
  | nil => by_cases hb : b = 0#8 <;> simp_all [putCell]
  | cons d cs ih =>
    simp only [putCell] at h
    split at h <;> [skip; split at h] <;> (try split at h) <;> simp_all
    · tauto
    · tauto
    · rcases h with h | h
      · exact .inl (.inl h)
      · rcases ih h with h | h
        · exact .inl (.inr h)
        · exact .inr h

theorem putCell_sorted {cs : List Host.Cell} (hs : CellsSorted cs) (a : Nat) (b : Byte) :
    CellsSorted (putCell cs a b) := by
  induction cs with
  | nil => by_cases hb : b = 0#8 <;> simp [putCell, hb]
  | cons d cs ih =>
    obtain ⟨k, c⟩ := d
    have hs' := hs
    rw [CellsSorted, List.pairwise_cons] at hs'
    simp only [putCell]
    split
    · rename_i hlt
      split
      · exact hs
      · refine List.pairwise_cons.2 ⟨fun d hd => ?_, hs⟩
        rcases List.mem_cons.1 hd with h | h
        · subst h; exact hlt
        · exact Nat.lt_trans hlt (hs'.1 d h)
    · split
      · rename_i he
        subst he
        split
        · exact hs'.2
        · exact List.pairwise_cons.2 ⟨hs'.1, hs'.2⟩
      · rename_i h1 h2
        refine List.pairwise_cons.2 ⟨fun d hd => ?_, ih hs'.2⟩
        rcases mem_putCell hd with h | ⟨h, -⟩
        · exact hs'.1 d h
        · subst h; simp; omega

theorem cellAt_putCell {cs : List Host.Cell} (hs : CellsSorted cs) (a : Nat) (b : Byte) (k : Nat) :
    cellAt (putCell cs a b) k = if k = a then b else cellAt cs k := by
  induction cs with
  | nil =>
    by_cases hb : b = 0#8
    · simp [putCell, cellAt, hb]
    · by_cases hk : k = a
      · simp [putCell, cellAt, hb, hk]
      · simp [putCell, cellAt, hb, hk, Ne.symm hk]
  | cons d cs ih =>
    obtain ⟨j, c⟩ := d
    have hs' := hs
    rw [CellsSorted, List.pairwise_cons] at hs'
    have hz : ∀ x, x ≤ j → cellAt cs x = 0#8 := fun x hx => cellAt_eq_zero fun d hd => by
      have := hs'.1 d hd
      simp at this; omega
    simp only [putCell]
    split
    · rename_i hlt
      by_cases hb : b = 0#8
      · by_cases hk : k = a
        · have hne : j ≠ a := by omega
          subst hk; simp [hb, cellAt, hne, hz k (by omega)]
        · simp [hb, hk]
      · by_cases hk : a = k
        · subst hk; simp [hb, cellAt]
        · have : k ≠ a := fun h => hk h.symm
          simp [hb, cellAt, hk, this]
    · split
      · rename_i he
        subst he
        by_cases hb : b = 0#8
        · by_cases hk : k = a
          · subst hk; simp [hb, hz k (by omega)]
          · have : a ≠ k := fun h => hk h.symm
            simp [hb, hk, cellAt, this]
        · by_cases hk : a = k
          · subst hk; simp [hb, cellAt]
          · have : k ≠ a := fun h => hk h.symm
            simp [hb, cellAt, hk, this]
      · rename_i h1 h2
        by_cases hk : k = a
        · have : j ≠ a := by omega
          subst hk; simp [cellAt, this, ih hs'.2]
        · by_cases hj : j = k
          · simp [cellAt, hj, hk]
          · simp [cellAt, hj, hk, ih hs'.2]

/-! ### The canonical form -/

theorem Memory.empty_wf : Memory.empty.wf := by simp [Memory.wf, Memory.empty]

theorem Memory.put_wf {m : Memory} (h : m.wf) {a : Nat} (ha : a < m.size) (b : Byte) : (m.put a b).wf := by
  refine ⟨putCell_sorted h.1 a b, fun c hc => ?_⟩
  rcases mem_putCell hc with h' | ⟨h', hb⟩
  · exact h.2 c h'
  · subst h'; exact ⟨ha, hb⟩

@[simp] theorem Memory.put_size (m : Memory) (a : Nat) (b : Byte) : (m.put a b).size = m.size := rfl

@[simp] theorem Memory.writeBytes_size (m : Memory) (a : Nat) (bs : List Byte) :
    (m.writeBytes a bs).size = m.size := by
  induction bs generalizing m a with
  | nil => rfl
  | cons b bs ih => simp [Memory.writeBytes, ih]

theorem Memory.writeBytes_wf {m : Memory} (h : m.wf) {a : Nat} {bs : List Byte}
    (ha : a + bs.length ≤ m.size) : (m.writeBytes a bs).wf := by
  induction bs generalizing m a with
  | nil => exact h
  | cons b bs ih =>
    simp only [List.length_cons] at ha
    exact ih (Memory.put_wf h (by omega) b) (by simp; omega)

@[simp] theorem Memory.grow_size (m : Memory) (n : Nat) : (m.grow n).size = max m.size n := rfl

theorem Memory.grow_wf {m : Memory} (h : m.wf) (n : Nat) : (m.grow n).wf :=
  ⟨h.1, fun c hc => ⟨lt_of_lt_of_le (h.2 c hc).1 (le_max_left _ _), (h.2 c hc).2⟩⟩

@[simp] theorem Memory.truncate_size (m : Memory) (n : Nat) : (m.truncate n).size = min m.size n := rfl

theorem Memory.truncate_wf {m : Memory} (h : m.wf) (n : Nat) : (m.truncate n).wf := by
  refine ⟨List.Pairwise.filter _ h.1, fun c hc => ?_⟩
  simp only [Memory.truncate, List.mem_filter, decide_eq_true_eq] at hc
  have := h.2 c hc.1
  exact ⟨by simp [Memory.truncate]; omega, this.2⟩

@[simp] theorem Memory.append_size (m : Memory) (bs : List Byte) :
    (m.append bs).size = m.size + bs.length := by simp [Memory.append]

theorem Memory.append_wf {m : Memory} (h : m.wf) (bs : List Byte) : (m.append bs).wf :=
  Memory.writeBytes_wf (Memory.grow_wf h _) (by simp)

theorem Memory.ofBytes_wf (bs : List Byte) : (Memory.ofBytes bs).wf := Memory.append_wf Memory.empty_wf bs

@[simp] theorem Memory.ofBytes_size (bs : List Byte) : (Memory.ofBytes bs).size = bs.length := by
  simp [Memory.ofBytes, Memory.empty]

/-! ### Reading back -/

theorem Memory.byte_put {m : Memory} (h : m.wf) (a : Nat) (b : Byte) (k : Nat) :
    (m.put a b).byte k = if k = a then b else m.byte k := cellAt_putCell h.1 a b k

theorem Memory.byte_past_end {m : Memory} (h : m.wf) {k : Nat} (hk : m.size ≤ k) : m.byte k = 0#8 :=
  cellAt_eq_zero fun c hc => by have := (h.2 c hc).1; omega

/-- The sorted form is all a read after a write needs; the length does not matter. -/
theorem Memory.byte_writeBytes_of_sorted {m : Memory} (h : CellsSorted m.cells) (a : Nat) (bs : List Byte)
    (k : Nat) :
    (m.writeBytes a bs).byte k = if a ≤ k ∧ k < a + bs.length then bs.getD (k - a) 0#8 else m.byte k := by
  induction bs generalizing m a with
  | nil => simp [Memory.writeBytes]
  | cons b bs ih =>
    have hs : CellsSorted (m.put a b).cells := putCell_sorted h a b
    have hp : (m.put a b).byte k = if k = a then b else m.byte k := cellAt_putCell h a b k
    rw [Memory.writeBytes, ih hs, hp]
    by_cases hk : k = a
    · subst hk; simp
    · by_cases hr : a + 1 ≤ k ∧ k < a + 1 + bs.length
      · have hr' : a ≤ k ∧ k < a + (b :: bs).length := by simp only [List.length_cons]; omega
        have e : k - a = (k - (a + 1)) + 1 := by omega
        rw [if_pos hr, if_pos hr', e, List.getD_cons_succ]
      · have hr' : ¬(a ≤ k ∧ k < a + (b :: bs).length) := by simp only [List.length_cons]; omega
        rw [if_neg hr, if_neg hr', if_neg hk]

theorem Memory.byte_writeBytes {m : Memory} (h : m.wf) (a : Nat) (bs : List Byte) (k : Nat) :
    (m.writeBytes a bs).byte k = if a ≤ k ∧ k < a + bs.length then bs.getD (k - a) 0#8 else m.byte k :=
  Memory.byte_writeBytes_of_sorted h.1 a bs k

@[simp] theorem Memory.byte_grow (m : Memory) (n k : Nat) : (m.grow n).byte k = m.byte k := rfl

theorem cellAt_filter_lt (cs : List Host.Cell) (n k : Nat) :
    cellAt (cs.filter fun c => decide (c.1 < n)) k = if k < n then cellAt cs k else 0#8 := by
  induction cs with
  | nil => simp [cellAt]
  | cons c cs ih =>
    obtain ⟨j, b⟩ := c
    by_cases hj : j < n
    · by_cases hk : j = k
      · subst hk; simp [hj, cellAt]
      · simp [hj, cellAt, hk, ih]
    · by_cases hk : j = k
      · subst hk; simp [hj, ih]
      · simp [hj, cellAt, hk, ih]

theorem Memory.byte_truncate (m : Memory) (n k : Nat) :
    (m.truncate n).byte k = if k < n then m.byte k else 0#8 := cellAt_filter_lt m.cells n k

theorem Memory.byte_append {m : Memory} (h : m.wf) (bs : List Byte) (k : Nat) :
    (m.append bs).byte k = if k < m.size then m.byte k else bs.getD (k - m.size) 0#8 := by
  rw [Memory.append, Memory.byte_writeBytes (Memory.grow_wf h _)]
  by_cases hk : k < m.size
  · simp [hk, Nat.not_le.2 hk]
  · by_cases hb : k < m.size + bs.length
    · simp [hk, hb, Nat.not_lt.1 hk]
    · have hz := Memory.byte_past_end h (Nat.not_lt.1 hk)
      have hl : bs.length ≤ k - m.size := by omega
      simp [hk, hb, hz, List.getD_eq_getElem?_getD, List.getElem?_eq_none hl]

/-! ### Lists of bytes -/

@[simp] theorem Memory.readBytes_length (m : Memory) (a n : Nat) : (m.readBytes a n).length = n := by
  simp [Memory.readBytes]

@[simp] theorem Memory.readBytes_getElem (m : Memory) (a n k : Nat) (h : k < (m.readBytes a n).length) :
    (m.readBytes a n)[k] = m.byte (a + k) := by simp [Memory.readBytes]

theorem Memory.readBytes_getElem? (m : Memory) (a n k : Nat) :
    (m.readBytes a n)[k]? = if k < n then some (m.byte (a + k)) else none := by
  by_cases h : k < n <;> simp [Memory.readBytes, h]

theorem Memory.readBytes_getD (m : Memory) (a n k : Nat) :
    (m.readBytes a n).getD k 0#8 = if k < n then m.byte (a + k) else 0#8 := by
  by_cases h : k < n <;> simp [List.getD_eq_getElem?_getD, h]

@[simp] theorem Memory.toBytes_length (m : Memory) : m.toBytes.length = m.size := by simp [Memory.toBytes]

@[simp] theorem Memory.toBytes_getElem (m : Memory) (k : Nat) (h : k < m.toBytes.length) :
    m.toBytes[k] = m.byte k := by simp [Memory.toBytes]

/-- The list view reads the same bytes, and has none past the end. -/
theorem Memory.toBytes_getElem? (m : Memory) (k : Nat) : m.toBytes[k]? = m.byte? k := by
  simp [Memory.toBytes, Memory.readBytes_getElem?, Memory.byte?]

theorem Memory.toBytes_append {m : Memory} (h : m.wf) (bs : List Byte) :
    (m.append bs).toBytes = m.toBytes ++ bs := by
  apply List.ext_getElem?
  intro k
  rw [Memory.toBytes_getElem?, List.getElem?_append, Memory.byte?, Memory.byte_append h]
  by_cases hk : k < m.size
  · have : k < m.size + bs.length := by omega
    simp [hk, this]
  · by_cases hb : k < m.size + bs.length
    · have hl : k - m.size < bs.length := by omega
      simp [hk, hb, List.getD_eq_getElem?_getD, hl]
    · have hl : bs.length ≤ k - m.size := by omega
      simp [hk, hb, hl]

theorem Memory.toBytes_truncate (m : Memory) (n : Nat) : (m.truncate n).toBytes = m.toBytes.take n := by
  apply List.ext_getElem?
  intro k
  rw [Memory.toBytes_getElem?, List.getElem?_take, Memory.byte?, Memory.byte_truncate]
  by_cases hn : k < n
  · simp [hn, Memory.toBytes_getElem?, Memory.byte?]
  · simp [hn]

theorem Memory.toBytes_empty : Memory.empty.toBytes = [] := rfl

theorem Memory.toBytes_ofBytes (bs : List Byte) : (Memory.ofBytes bs).toBytes = bs := by
  simp [Memory.ofBytes, Memory.toBytes_append Memory.empty_wf, Memory.toBytes_empty]

theorem Memory.toBytes_grow {m : Memory} (h : m.wf) (n : Nat) :
    (m.grow n).toBytes = m.toBytes ++ List.replicate (n - m.size) 0#8 := by
  apply List.ext_getElem?
  intro k
  rw [Memory.toBytes_getElem?, List.getElem?_append, Memory.byte?, Memory.byte_grow]
  by_cases hk : k < m.size
  · have : k < max m.size n := lt_max_of_lt_left hk
    simp [hk]
  · have hz := Memory.byte_past_end h (Nat.not_lt.1 hk)
    by_cases hn : k < n
    · have : k - m.size < n - m.size := by omega
      simp [hk, hn, hz, this]
    · have : n - m.size ≤ k - m.size := by omega
      simp [hk, hn, this]

/-! ### Equality -/

theorem cells_ext {cs ds : List Host.Cell} (hc : CellsSorted cs) (hd : CellsSorted ds)
    (nc : ∀ c ∈ cs, c.2 ≠ 0#8) (nd : ∀ c ∈ ds, c.2 ≠ 0#8) (h : ∀ a, cellAt cs a = cellAt ds a) : cs = ds := by
  have mem : ∀ {cs ds : List Host.Cell}, CellsSorted cs → CellsSorted ds → (∀ c ∈ cs, c.2 ≠ 0#8) →
      (∀ a, cellAt cs a = cellAt ds a) → ∀ c ∈ cs, c ∈ ds := by
    intro cs ds hc hd nc h c hm
    have h1 : cellAt ds c.1 = c.2 := (h c.1).symm.trans (cellAt_of_mem hc (by simpa using hm))
    by_contra hn
    have : ∃ d ∈ ds, d.1 = c.1 := by
      by_contra hx
      push Not at hx
      exact nc c hm (h1.symm.trans (cellAt_eq_zero hx))
    obtain ⟨d, hdm, hde⟩ := this
    have h2 : cellAt ds d.1 = d.2 := cellAt_of_mem hd (by simpa using hdm)
    have : d = c := Prod.ext hde (by rw [← h2, hde, h1])
    exact hn (this ▸ hdm)
  have nodup : ∀ {cs : List Host.Cell}, CellsSorted cs → cs.Nodup := fun hs =>
    List.Pairwise.imp (fun hlt he => by rw [he] at hlt; exact Nat.lt_irrefl _ hlt) hs
  have hp : cs.Perm ds := (List.perm_ext_iff_of_nodup (nodup hc) (nodup hd)).2 fun c =>
    ⟨mem hc hd nc h c, mem hd hc nd (fun a => (h a).symm) c⟩
  exact hp.eq_of_pairwise (fun a b _ _ h1 h2 => absurd (Nat.lt_trans h1 h2) (Nat.lt_irrefl _)) hc hd

/-- Canonical byte sequences of the same length with the same bytes are equal. -/
theorem Memory.ext_of_byte {m n : Memory} (hm : m.wf) (hn : n.wf) (hs : m.size = n.size)
    (h : ∀ k < m.size, m.byte k = n.byte k) : m = n := by
  have hc : m.cells = n.cells := cells_ext hm.1 hn.1 (fun c hc => (hm.2 c hc).2) (fun c hc => (hn.2 c hc).2)
    fun a => by
      by_cases ha : a < m.size
      · exact h a ha
      · exact (Memory.byte_past_end hm (Nat.not_lt.1 ha)).trans
          (Memory.byte_past_end hn (by omega)).symm
  cases m; cases n; simp_all

theorem Memory.ext_of_toBytes {m n : Memory} (hm : m.wf) (hn : n.wf) (h : m.toBytes = n.toBytes) : m = n := by
  have hs : m.size = n.size := by rw [← m.toBytes_length, h, n.toBytes_length]
  refine Memory.ext_of_byte hm hn hs fun k hk => ?_
  have := congrArg (·[k]?) h
  simpa [Memory.toBytes_getElem?, Memory.byte?, hk, ← hs] using this

/-- Growing to a length already reached, or cutting to one, changes nothing. -/
theorem Memory.grow_le {m : Memory} {n : Nat} (h : n ≤ m.size) : m.grow n = m := by
  unfold Memory.grow
  rw [Nat.max_eq_left h]

theorem Memory.truncate_ge {m : Memory} (h : m.wf) {n : Nat} (hn : m.size ≤ n) : m.truncate n = m := by
  apply Memory.ext_of_toBytes (Memory.truncate_wf h _) h
  rw [Memory.toBytes_truncate, List.take_of_length_le (by simpa using hn)]

/-- What a store that may grow the sequence leaves in it, byte by byte (spec/20_memory.md R57, R66). -/
theorem Memory.byte?_stored {m : Memory} (h : m.wf) (a : Nat) (bs : List Byte) (k : Nat) :
    ((m.grow (a + bs.length)).writeBytes a bs).byte? k =
      if k < max m.size (a + bs.length) then
        some (if a ≤ k ∧ k < a + bs.length then bs.getD (k - a) 0#8 else m.byte k)
      else none := by
  rw [Memory.byte?, Memory.byte_writeBytes (Memory.grow_wf h _)]
  simp

end Sys2Proof.Machine
end

