-- ==== Sys2Proof/Laws/State.lean ====
section
/-! SUPPORT. One lemma per field per named update of the state, and reading registers through them. -/

namespace Sys2Proof.Machine

/-! ### `advance` -/

@[simp] theorem State.advance_params (s : State) (w : Nat) : (s.advance w).params = s.params := rfl
@[simp] theorem State.advance_x (s : State) (w : Nat) : (s.advance w).x = s.x := rfl
@[simp] theorem State.advance_pc (s : State) (w : Nat) : (s.advance w).pc = s.pc + w := rfl
@[simp] theorem State.advance_eqf (s : State) (w : Nat) : (s.advance w).eqf = s.eqf := rfl
@[simp] theorem State.advance_rem (s : State) (w : Nat) : (s.advance w).rem = s.rem := rfl
@[simp] theorem State.advance_status (s : State) (w : Nat) : (s.advance w).status = s.status := rfl
@[simp] theorem State.advance_prog (s : State) (w : Nat) : (s.advance w).prog = s.prog := rfl
@[simp] theorem State.advance_ro (s : State) (w : Nat) : (s.advance w).ro = s.ro := rfl
@[simp] theorem State.advance_stack (s : State) (w : Nat) : (s.advance w).stack = s.stack := rfl
@[simp] theorem State.advance_heap (s : State) (w : Nat) : (s.advance w).heap = s.heap := rfl
@[simp] theorem State.advance_out (s : State) (w : Nat) : (s.advance w).out = s.out := rfl
@[simp] theorem State.advance_reg (s : State) (w : Nat) (q : Reg) : (s.advance w).reg q = s.reg q := rfl
@[simp] theorem State.advance_int (s : State) (w : Nat) (q : Reg) : (s.advance w).int q = s.int q := rfl

/-! ### `raise` -/

@[simp] theorem State.raise_params (s : State) (f : Fault) : (s.raise f).params = s.params := rfl
@[simp] theorem State.raise_x (s : State) (f : Fault) : (s.raise f).x = s.x := rfl
@[simp] theorem State.raise_pc (s : State) (f : Fault) : (s.raise f).pc = s.pc := rfl
@[simp] theorem State.raise_eqf (s : State) (f : Fault) : (s.raise f).eqf = s.eqf := rfl
@[simp] theorem State.raise_rem (s : State) (f : Fault) : (s.raise f).rem = s.rem := rfl
@[simp] theorem State.raise_status (s : State) (f : Fault) : (s.raise f).status = .faulted f s.pc := rfl
@[simp] theorem State.raise_prog (s : State) (f : Fault) : (s.raise f).prog = s.prog := rfl
@[simp] theorem State.raise_ro (s : State) (f : Fault) : (s.raise f).ro = s.ro := rfl
@[simp] theorem State.raise_stack (s : State) (f : Fault) : (s.raise f).stack = s.stack := rfl
@[simp] theorem State.raise_heap (s : State) (f : Fault) : (s.raise f).heap = s.heap := rfl
@[simp] theorem State.raise_out (s : State) (f : Fault) : (s.raise f).out = s.out := rfl
@[simp] theorem State.raise_reg (s : State) (f : Fault) (q : Reg) : (s.raise f).reg q = s.reg q := rfl
@[simp] theorem State.raise_int (s : State) (f : Fault) (q : Reg) : (s.raise f).int q = s.int q := rfl

/-! ### `halt` -/

@[simp] theorem State.halt_params (s : State) (c : HaltCause) : (s.halt c).params = s.params := rfl
@[simp] theorem State.halt_x (s : State) (c : HaltCause) : (s.halt c).x = s.x := rfl
@[simp] theorem State.halt_pc (s : State) (c : HaltCause) : (s.halt c).pc = s.pc := rfl
@[simp] theorem State.halt_eqf (s : State) (c : HaltCause) : (s.halt c).eqf = s.eqf := rfl
@[simp] theorem State.halt_rem (s : State) (c : HaltCause) : (s.halt c).rem = s.rem := rfl
@[simp] theorem State.halt_status (s : State) (c : HaltCause) : (s.halt c).status = .halted c := rfl
@[simp] theorem State.halt_prog (s : State) (c : HaltCause) : (s.halt c).prog = s.prog := rfl
@[simp] theorem State.halt_ro (s : State) (c : HaltCause) : (s.halt c).ro = s.ro := rfl
@[simp] theorem State.halt_stack (s : State) (c : HaltCause) : (s.halt c).stack = s.stack := rfl
@[simp] theorem State.halt_heap (s : State) (c : HaltCause) : (s.halt c).heap = s.heap := rfl
@[simp] theorem State.halt_out (s : State) (c : HaltCause) : (s.halt c).out = s.out := rfl
@[simp] theorem State.halt_reg (s : State) (c : HaltCause) (q : Reg) : (s.halt c).reg q = s.reg q := rfl
@[simp] theorem State.halt_int (s : State) (c : HaltCause) (q : Reg) : (s.halt c).int q = s.int q := rfl

/-! ### `setReg` -/

@[simp] theorem State.setReg_params (s : State) (r : Reg) (v : Word) : (s.setReg r v).params = s.params := rfl
@[simp] theorem State.setReg_pc (s : State) (r : Reg) (v : Word) : (s.setReg r v).pc = s.pc := rfl
@[simp] theorem State.setReg_eqf (s : State) (r : Reg) (v : Word) : (s.setReg r v).eqf = s.eqf := rfl
@[simp] theorem State.setReg_rem (s : State) (r : Reg) (v : Word) : (s.setReg r v).rem = s.rem := rfl
@[simp] theorem State.setReg_status (s : State) (r : Reg) (v : Word) : (s.setReg r v).status = s.status := rfl
@[simp] theorem State.setReg_prog (s : State) (r : Reg) (v : Word) : (s.setReg r v).prog = s.prog := rfl
@[simp] theorem State.setReg_ro (s : State) (r : Reg) (v : Word) : (s.setReg r v).ro = s.ro := rfl
@[simp] theorem State.setReg_stack (s : State) (r : Reg) (v : Word) : (s.setReg r v).stack = s.stack := rfl
@[simp] theorem State.setReg_heap (s : State) (r : Reg) (v : Word) : (s.setReg r v).heap = s.heap := rfl
@[simp] theorem State.setReg_out (s : State) (r : Reg) (v : Word) : (s.setReg r v).out = s.out := rfl

/-! ### `setEqf` -/

@[simp] theorem State.setEqf_params (s : State) (b : Bool) : (s.setEqf b).params = s.params := rfl
@[simp] theorem State.setEqf_x (s : State) (b : Bool) : (s.setEqf b).x = s.x := rfl
@[simp] theorem State.setEqf_pc (s : State) (b : Bool) : (s.setEqf b).pc = s.pc := rfl
@[simp] theorem State.setEqf_eqf (s : State) (b : Bool) : (s.setEqf b).eqf = b := rfl
@[simp] theorem State.setEqf_rem (s : State) (b : Bool) : (s.setEqf b).rem = s.rem := rfl
@[simp] theorem State.setEqf_status (s : State) (b : Bool) : (s.setEqf b).status = s.status := rfl
@[simp] theorem State.setEqf_prog (s : State) (b : Bool) : (s.setEqf b).prog = s.prog := rfl
@[simp] theorem State.setEqf_ro (s : State) (b : Bool) : (s.setEqf b).ro = s.ro := rfl
@[simp] theorem State.setEqf_stack (s : State) (b : Bool) : (s.setEqf b).stack = s.stack := rfl
@[simp] theorem State.setEqf_heap (s : State) (b : Bool) : (s.setEqf b).heap = s.heap := rfl
@[simp] theorem State.setEqf_out (s : State) (b : Bool) : (s.setEqf b).out = s.out := rfl
@[simp] theorem State.setEqf_reg (s : State) (b : Bool) (q : Reg) : (s.setEqf b).reg q = s.reg q := rfl
@[simp] theorem State.setEqf_int (s : State) (b : Bool) (q : Reg) : (s.setEqf b).int q = s.int q := rfl

/-! ### `emit` -/

@[simp] theorem State.emit_params (s : State) (bs : List Byte) : (s.emit bs).params = s.params := rfl
@[simp] theorem State.emit_x (s : State) (bs : List Byte) : (s.emit bs).x = s.x := rfl
@[simp] theorem State.emit_pc (s : State) (bs : List Byte) : (s.emit bs).pc = s.pc := rfl
@[simp] theorem State.emit_eqf (s : State) (bs : List Byte) : (s.emit bs).eqf = s.eqf := rfl
@[simp] theorem State.emit_rem (s : State) (bs : List Byte) : (s.emit bs).rem = s.rem := rfl
@[simp] theorem State.emit_status (s : State) (bs : List Byte) : (s.emit bs).status = s.status := rfl
@[simp] theorem State.emit_prog (s : State) (bs : List Byte) : (s.emit bs).prog = s.prog := rfl
@[simp] theorem State.emit_ro (s : State) (bs : List Byte) : (s.emit bs).ro = s.ro := rfl
@[simp] theorem State.emit_stack (s : State) (bs : List Byte) : (s.emit bs).stack = s.stack := rfl
@[simp] theorem State.emit_heap (s : State) (bs : List Byte) : (s.emit bs).heap = s.heap := rfl
@[simp] theorem State.emit_out (s : State) (bs : List Byte) : (s.emit bs).out = s.out ++ bs := rfl
@[simp] theorem State.emit_reg (s : State) (bs : List Byte) (q : Reg) : (s.emit bs).reg q = s.reg q := rfl
@[simp] theorem State.emit_int (s : State) (bs : List Byte) (q : Reg) : (s.emit bs).int q = s.int q := rfl

/-! ### Registers -/

@[simp] theorem State.setReg_reg_same (s : State) (r : Reg) (v : Word) : (s.setReg r v).reg r = v := by
  simp [State.setReg, State.reg]

theorem State.setReg_reg (s : State) (r q : Reg) (v : Word) :
    (s.setReg r v).reg q = if q = r then v else s.reg q := by
  by_cases h : q = r
  · subst h; simp
  · have hne : r.val ≠ q.val := fun e => h (Fin.ext e.symm)
    simp [State.setReg, State.reg, h, Vector.getElem_set_ne, hne]

theorem State.setReg_reg_other (s : State) {r q : Reg} (v : Word) (h : q ≠ r) :
    (s.setReg r v).reg q = s.reg q := by simp [State.setReg_reg, h]

@[simp] theorem State.setReg_int_same (s : State) (r : Reg) (v : Word) :
    (s.setReg r v).int r = v.toInt := by simp [State.int]

theorem State.setReg_int_other (s : State) {r q : Reg} (v : Word) (h : q ≠ r) :
    (s.setReg r v).int q = s.int q := by simp [State.int, State.setReg_reg, h]

/-- Registers are read through any update that leaves the register file alone. -/
theorem State.reg_congr {s t : State} (h : t.x = s.x) (r : Reg) : t.reg r = s.reg r := by
  simp [State.reg, h]

theorem State.int_congr {s t : State} (h : t.x = s.x) (r : Reg) : t.int r = s.int r := by
  simp [State.int, State.reg_congr h]

/-- A register's value lies in `i32` (spec/10_state.md R21). -/
theorem State.int_inI32 (s : State) (r : Reg) : InI32 (s.int r) := by
  have h1 := BitVec.le_toInt (s.reg r)
  have h2 := BitVec.toInt_lt (x := s.reg r)
  simp only [State.int, InI32]
  norm_num at h1 h2
  omega

end Sys2Proof.Machine
end

