-- ==== Sys2Proof/Laws/Ops.lean ====
section
/-! SUPPORT. One lemma per shared operation that says everything it can do, for proofs to cite. -/

namespace Sys2Proof.Machine

/-! ### Words as bytes -/

@[simp] theorem wordBytes_length (w : Word) : (wordBytes w).length = 4 := rfl

@[simp] theorem wordOfBytes_wordBytes (w : Word) : wordOfBytes (wordBytes w) = w := by
  apply BitVec.eq_of_getLsbD_eq
  intro i hi
  simp only [wordOfBytes, wordBytes, List.getD_cons_zero, List.getD_cons_succ, BitVec.getLsbD_append,
    BitVec.getLsbD_extractLsb']
  by_cases h1 : i < 8
  · simp [h1]
  · by_cases h2 : i - 8 < 8
    · have : 8 + (i - 8) = i := by omega
      simp [h1, h2, this]
    · by_cases h3 : i - 8 - 8 < 8
      · have : 16 + (i - 8 - 8) = i := by omega
        simp [h1, h2, h3, this]
      · have h4 : i - 8 - 8 - 8 < 8 := by omega
        have : 24 + (i - 8 - 8 - 8) = i := by omega
        simp [h1, h2, h3, h4, this]

/-- `le32` as the number spec/00_scope.md's notation gives. -/
theorem wordOfBytes_toNat (bs : List Byte) :
    (wordOfBytes bs).toNat =
      (bs.getD 0 0#8).toNat + 256 * (bs.getD 1 0#8).toNat + 65536 * (bs.getD 2 0#8).toNat +
        16777216 * (bs.getD 3 0#8).toNat := by
  have h : ∀ {n : Nat} (x : BitVec n) (y : Byte), (x ++ y).toNat = x.toNat * 256 + y.toNat := by
    intro n x y
    rw [BitVec.toNat_append, ← Nat.shiftLeft_add_eq_or_of_lt y.isLt, Nat.shiftLeft_eq]
  simp only [wordOfBytes, h]
  omega

/-! ### Narrowing -/

theorem wrap32_toInt_of_inI32 {v : Int} (h : InI32 v) : (wrap32 v).toInt = v := by
  simp only [wrap32, BitVec.toInt_ofInt]
  simp only [InI32] at h
  rw [Int.bmod_eq_of_le] <;> norm_num <;> omega

theorem wrap32_toInt_congr (v : Int) : (4294967296 : Int) ∣ (wrap32 v).toInt - v := by
  simp only [wrap32, BitVec.toInt_ofInt]
  norm_num
  exact Int.dvd_bmod_sub_self

@[simp] theorem wrap32_toInt (w : Word) : wrap32 w.toInt = w := by simp [wrap32]

theorem chk32_of_inI32 {v : Int} (h : InI32 v) (p : Params) : chk32 p v = .ok (wrap32 v) := by
  simp [chk32, h]

theorem chk32_of_wrap {p : Params} (h : p.overflow = .wrap) (v : Int) : chk32 p v = .ok (wrap32 v) := by
  simp [chk32, h]

theorem chk32_of_fault {p : Params} {v : Int} (hv : ¬InI32 v) (h : p.overflow = .fault) :
    chk32 p v = .error (.arithmeticOverflow v) := by simp [chk32, h, hv]

/-- Everything `chk32` can do. -/
theorem chk32_cases (p : Params) (v : Int) :
    ((InI32 v ∨ p.overflow = .wrap) ∧ chk32 p v = .ok (wrap32 v)) ∨
      (¬InI32 v ∧ p.overflow = .fault ∧ chk32 p v = .error (.arithmeticOverflow v)) := by
  by_cases hv : InI32 v
  · exact .inl ⟨.inl hv, chk32_of_inI32 hv p⟩
  · cases hp : p.overflow with
    | wrap => exact .inl ⟨.inr rfl, chk32_of_wrap hp v⟩
    | fault => exact .inr ⟨hv, rfl, chk32_of_fault hv hp⟩

theorem chk32_ok {p : Params} {v : Int} {w : Word} (h : chk32 p v = .ok w) :
    w = wrap32 v ∧ (InI32 v ∨ p.overflow = .wrap) := by
  rcases chk32_cases p v with ⟨hc, he⟩ | ⟨_, _, he⟩
  · rw [he] at h; cases h; exact ⟨rfl, hc⟩
  · rw [he] at h; cases h

/-! ### The frame of an instruction -/

theorem perform_ok {w : Nat} {s t : State} {e : State → Except Fault State}
    (h : e (s.advance w) = .ok t) : perform w s e = .next t := by simp [perform, h]

theorem perform_error {w : Nat} {s : State} {f : Fault} {e : State → Except Fault State}
    (h : e (s.advance w) = .error f) : perform w s e = .next (s.raise f) := by simp [perform, h]

/-- Everything an instruction can do: its effect on the advanced state, or a fault. -/
theorem perform_cases {w : Nat} {s t : State} {e : State → Except Fault State}
    (h : perform w s e = .next t) :
    e (s.advance w) = .ok t ∨ ∃ f, e (s.advance w) = .error f ∧ t = s.raise f := by
  unfold perform at h
  split at h
  · rename_i u hu; cases h; exact .inl hu
  · rename_i f hf; cases h; exact .inr ⟨f, hf, rfl⟩

theorem perform_answers_next (w : Nat) (s : State) (e : State → Except Fault State) :
    ∃ t, perform w s e = .next t := by
  unfold perform
  split <;> exact ⟨_, rfl⟩

/-! ### Jumps -/

theorem jumpTo_nonneg {n : Int} (h : 0 ≤ n) (s : State) : jumpTo n s = .ok { s with pc := n.toNat } := by
  simp [jumpTo, Int.not_lt.2 h]

theorem jumpTo_neg {n : Int} (h : n < 0) (s : State) : jumpTo n s = .error (.pcOutOfRange n) := by
  simp [jumpTo, h]

@[simp] theorem jumpTo_nat (n : Nat) (s : State) : jumpTo n s = .ok { s with pc := n } := by simp [jumpTo]

theorem jumpTo_ok {n : Int} {s t : State} (h : jumpTo n s = .ok t) : 0 ≤ n ∧ t = { s with pc := n.toNat } := by
  unfold jumpTo at h
  split at h
  · cases h
  · rename_i hn; cases h; exact ⟨Int.not_lt.1 hn, rfl⟩

/-! ### The stack unit -/

theorem stackAppend_ok {p : Params} {bs : List Byte} {st st' : Memory} (h : stackAppend p bs st = .ok st') :
    st.size + bs.length ≤ p.memLimit ∧ st' = st.append bs := by
  unfold stackAppend at h
  split at h
  · cases h
  · rename_i hn; cases h; exact ⟨by omega, rfl⟩

theorem stackAppend_within {p : Params} {bs : List Byte} {st : Memory} (h : st.size + bs.length ≤ p.memLimit) :
    stackAppend p bs st = .ok (st.append bs) := by simp [stackAppend, Nat.not_lt.2 h]

theorem stackAppend_past {p : Params} {bs : List Byte} {st : Memory} (h : p.memLimit < st.size + bs.length) :
    stackAppend p bs st = .error (.resourceExhausted .stack (st.size + bs.length)) := by simp [stackAppend, h]

theorem popWord_short {st : Memory} (h : st.size < 4) : popWord st = (0#32, st) := by simp [popWord, h]

theorem popWord_full {st : Memory} (h : 4 ≤ st.size) :
    popWord st = (wordOfBytes (st.readBytes (st.size - 4) 4), st.truncate (st.size - 4)) := by
  simp [popWord, Nat.not_lt.2 h]

theorem popWord_wf {st : Memory} (h : st.wf) : (popWord st).2.wf := by
  unfold popWord
  split
  · exact h
  · exact Memory.truncate_wf h _

theorem popWord_size_le (st : Memory) : (popWord st).2.size ≤ st.size := by
  unfold popWord
  split <;> simp

/-- The bytes a word pop reads are the last four of the sequence. -/
theorem popWord_of_toBytes {st : Memory} {base : List Byte} {w : Word}
    (h : st.toBytes = base ++ wordBytes w) :
    (popWord st).1 = w ∧ (popWord st).2.toBytes = base := by
  have hl : st.size = base.length + 4 := by rw [← st.toBytes_length, h]; simp
  have hr : st.readBytes (st.size - 4) 4 = wordBytes w := by
    apply List.ext_getElem?
    intro k
    rw [Memory.readBytes_getElem?]
    by_cases hk : k < 4
    · have := congrArg (·[base.length + k]?) h
      simp only [Memory.toBytes_getElem?, Memory.byte?] at this
      rw [List.getElem?_append_right (by omega), Nat.add_sub_cancel_left] at this
      have hlt : base.length + k < st.size := by omega
      have he : st.size - 4 + k = base.length + k := by omega
      rw [if_pos hk, he, ← this, if_pos hlt]
    · rw [if_neg hk, List.getElem?_eq_none (by simp; omega)]
  rw [popWord_full (by omega), hr]
  refine ⟨wordOfBytes_wordBytes w, ?_⟩
  simp [Memory.toBytes_truncate, h, hl]

theorem safeGrow_ok {p : Params} {n : Nat} {st st' : Memory} (h : safeGrow p n st = .ok st') :
    (n ≤ st.size ∨ n ≤ p.memLimit) ∧ st' = st.grow n := by
  unfold safeGrow at h
  split at h
  · split at h
    · cases h
    · rename_i hn; cases h; exact ⟨.inr (by omega), rfl⟩
  · rename_i hn
    cases h
    exact ⟨.inl (by omega), by simp [Memory.grow, Nat.not_lt.1 hn]⟩

theorem safeGrow_within {p : Params} {n : Nat} {st : Memory} (h : n ≤ st.size ∨ n ≤ p.memLimit) :
    safeGrow p n st = .ok (st.grow n) := by
  unfold safeGrow
  split
  · split
    · omega
    · rfl
  · rename_i hn; simp [Memory.grow, Nat.not_lt.1 hn]

theorem safeGrow_past {p : Params} {n : Nat} {st : Memory} (h1 : st.size < n) (h2 : p.memLimit < n) :
    safeGrow p n st = .error (.resourceExhausted .stack n) := by simp [safeGrow, h1, h2]

theorem moveSp_ok {d : Int} {s t : State} (h : moveSp d s = .ok t) :
    t = s.setReg spReg (wrap32 (s.int spReg + d)) ∧
      (InI32 (s.int spReg + d) ∨ s.params.overflow = .wrap) := by
  rcases chk32_cases s.params (s.int spReg + d) with ⟨hc, he⟩ | ⟨_, _, he⟩
  · rw [moveSp, he] at h; cases h; exact ⟨rfl, hc⟩
  · rw [moveSp, he] at h; cases h

theorem moveSp_within {d : Int} {s : State} (h : InI32 (s.int spReg + d) ∨ s.params.overflow = .wrap) :
    moveSp d s = .ok (s.setReg spReg (wrap32 (s.int spReg + d))) := by
  rcases chk32_cases s.params (s.int spReg + d) with ⟨_, he⟩ | ⟨h1, h2, _⟩
  · rw [moveSp, he]; rfl
  · rcases h with h | h
    · exact absurd h h1
    · rw [h2] at h; cases h

theorem moveSp_past {d : Int} {s : State} (h : ¬InI32 (s.int spReg + d)) (hp : s.params.overflow = .fault) :
    moveSp d s = .error (.arithmeticOverflow (s.int spReg + d)) := by
  rw [moveSp, chk32_of_fault h hp]; rfl

theorem pushAndMove_ok {v : Word} {s t : State} (h : pushAndMove v s = .ok t) :
    s.stack.size + 4 ≤ s.params.memLimit ∧
      (InI32 (s.int spReg + 4) ∨ s.params.overflow = .wrap) ∧
      t = { s with stack := s.stack.append (wordBytes v) }.setReg spReg (wrap32 (s.int spReg + 4)) := by
  unfold pushAndMove pushWord at h
  cases ha : stackAppend s.params (wordBytes v) s.stack with
  | error f => rw [ha] at h; cases h
  | ok st =>
    obtain ⟨h1, rfl⟩ := stackAppend_ok ha
    rw [ha] at h
    obtain ⟨h2, h3⟩ := moveSp_ok (s := { s with stack := _ }) h
    exact ⟨h1, h3, h2⟩

theorem pushAndMove_within {v : Word} {s : State} (h1 : s.stack.size + 4 ≤ s.params.memLimit)
    (h2 : InI32 (s.int spReg + 4) ∨ s.params.overflow = .wrap) :
    pushAndMove v s =
      .ok ({ s with stack := s.stack.append (wordBytes v) }.setReg spReg (wrap32 (s.int spReg + 4))) := by
  unfold pushAndMove pushWord
  rw [stackAppend_within (by simpa using h1)]
  exact moveSp_within (s := { s with stack := s.stack.append (wordBytes v) }) h2

theorem pushAndMove_stack_past {v : Word} {s : State} (h : s.params.memLimit < s.stack.size + 4) :
    pushAndMove v s = .error (.resourceExhausted .stack (s.stack.size + 4)) := by
  unfold pushAndMove pushWord
  rw [stackAppend_past (by simpa using h)]
  rfl

theorem pushAndMove_sp_past {v : Word} {s : State} (h1 : s.stack.size + 4 ≤ s.params.memLimit)
    (h2 : ¬InI32 (s.int spReg + 4)) (hp : s.params.overflow = .fault) :
    pushAndMove v s = .error (.arithmeticOverflow (s.int spReg + 4)) := by
  unfold pushAndMove pushWord
  rw [stackAppend_within (by simpa using h1)]
  exact moveSp_past (s := { s with stack := s.stack.append (wordBytes v) }) h2 hp

theorem popAndMove_ok {v : Word} {s t : State} (h : popAndMove s = .ok (v, t)) :
    v = (popWord s.stack).1 ∧ (InI32 (s.int spReg + -4) ∨ s.params.overflow = .wrap) ∧
      t = { s with stack := (popWord s.stack).2 }.setReg spReg (wrap32 (s.int spReg + -4)) := by
  unfold popAndMove at h
  cases hm : moveSp (-4) { s with stack := (popWord s.stack).2 } with
  | error f => rw [hm] at h; cases h
  | ok u =>
    rw [hm] at h
    cases h
    obtain ⟨h1, h2⟩ := moveSp_ok hm
    exact ⟨rfl, h2, h1⟩

theorem popAndMove_within {s : State} (h : InI32 (s.int spReg + -4) ∨ s.params.overflow = .wrap) :
    popAndMove s =
      .ok ((popWord s.stack).1,
        { s with stack := (popWord s.stack).2 }.setReg spReg (wrap32 (s.int spReg + -4))) := by
  unfold popAndMove
  rw [moveSp_within (s := { s with stack := (popWord s.stack).2 }) h]
  rfl

theorem popAndMove_past {s : State} (h : ¬InI32 (s.int spReg + -4)) (hp : s.params.overflow = .fault) :
    popAndMove s = .error (.arithmeticOverflow (s.int spReg + -4)) := by
  unfold popAndMove
  rw [moveSp_past (s := { s with stack := (popWord s.stack).2 }) h hp]
  rfl

/-! ### Bounds-checked accesses -/

theorem memRead_ok {s : State} {sec : Section} {a : Int} {n : Nat} {bs : List Byte}
    (h : memRead s sec a n = .ok bs) :
    0 ≤ a ∧ a + n ≤ (s.buffer sec).size ∧ bs = (s.buffer sec).readBytes a.toNat n := by
  unfold memRead at h
  split at h
  · cases h
  · rename_i hn; cases h; exact ⟨by omega, by omega, rfl⟩

theorem memRead_within {s : State} {sec : Section} {a : Int} {n : Nat} (h1 : 0 ≤ a)
    (h2 : a + n ≤ (s.buffer sec).size) :
    memRead s sec a n = .ok ((s.buffer sec).readBytes a.toNat n) := by
  rw [memRead, if_neg (by omega)]

theorem memRead_past {s : State} {sec : Section} {a : Int} {n : Nat}
    (h : a < 0 ∨ (s.buffer sec).size < a + n) :
    memRead s sec a n = .error (.addressOutOfRange (spaceOf sec) a n) := by
  rw [memRead, if_pos (by omega)]

/-- Everything a successful write can do: it writes one buffer, the stack grown to hold the bytes. -/
theorem memWrite_ok {s t : State} {sec : Section} {a : Int} {bs : List Byte}
    (h : memWrite s sec a bs = .ok t) :
    0 ≤ a ∧
      ((sec = .heap ∧ a + bs.length ≤ s.heap.hbuf.size ∧
          t = { s with heap := { s.heap with hbuf := s.heap.hbuf.writeBytes a.toNat bs } }) ∨
        (sec = .stack ∧
          (a.toNat + bs.length ≤ s.stack.size ∨ a.toNat + bs.length ≤ s.params.memLimit) ∧
          t = { s with stack := (s.stack.grow (a.toNat + bs.length)).writeBytes a.toNat bs })) := by
  unfold memWrite at h
  split at h
  · cases h
  · rename_i ha
    refine ⟨by omega, ?_⟩
    cases sec with
    | heap =>
      simp only at h
      split at h
      · cases h
      · cases h; exact .inl ⟨rfl, by omega, rfl⟩
    | stack =>
      simp only at h
      cases hg : safeGrow s.params (a.toNat + bs.length) s.stack with
      | error f => rw [hg] at h; cases h
      | ok st =>
        obtain ⟨h1, rfl⟩ := safeGrow_ok hg
        rw [hg] at h
        cases h
        exact .inr ⟨rfl, h1, rfl⟩

theorem memWrite_heap_within {s : State} {a : Int} {bs : List Byte} (h1 : 0 ≤ a)
    (h2 : a + bs.length ≤ s.heap.hbuf.size) :
    memWrite s .heap a bs =
      .ok { s with heap := { s.heap with hbuf := s.heap.hbuf.writeBytes a.toNat bs } } := by
  rw [memWrite, if_neg (by omega)]
  rw [if_neg (by omega)]

theorem memWrite_stack_within {s : State} {a : Int} {bs : List Byte} (h1 : 0 ≤ a)
    (h2 : a.toNat + bs.length ≤ s.stack.size ∨ a.toNat + bs.length ≤ s.params.memLimit) :
    memWrite s .stack a bs =
      .ok { s with stack := (s.stack.grow (a.toNat + bs.length)).writeBytes a.toNat bs } := by
  rw [memWrite, if_neg (by omega)]
  rw [safeGrow_within h2]
  rfl

theorem memWrite_negative {s : State} {sec : Section} {a : Int} {bs : List Byte} (h : a < 0) :
    memWrite s sec a bs = .error (.addressOutOfRange (spaceOf sec) a bs.length) := by
  unfold memWrite
  rw [if_pos h]

theorem memWrite_heap_past {s : State} {a : Int} {bs : List Byte} (h1 : 0 ≤ a)
    (h2 : s.heap.hbuf.size < a + bs.length) :
    memWrite s .heap a bs = .error (.addressOutOfRange .heap a bs.length) := by
  rw [memWrite, if_neg (by omega)]
  rw [if_pos (by omega)]

theorem memWrite_stack_past {s : State} {a : Int} {bs : List Byte} (h1 : 0 ≤ a)
    (h2 : s.stack.size < a.toNat + bs.length) (h3 : s.params.memLimit < a.toNat + bs.length) :
    memWrite s .stack a bs = .error (.resourceExhausted .stack (a.toNat + bs.length)) := by
  rw [memWrite, if_neg (by omega)]
  rw [safeGrow_past h2 h3]
  rfl

/-! ### The heap unit -/

/-- What the first-fit scan finds: the first free block that is large enough, marked used in its place. -/
theorem firstFit_some {a : Nat} {bs bs' : List Block} {start : Nat} (h : firstFit a bs = some (start, bs')) :
    ∃ pre b post, bs = pre ++ b :: post ∧ b.isFree = true ∧ a ≤ b.size ∧ start = b.start ∧
      (∀ c ∈ pre, ¬(c.isFree = true ∧ a ≤ c.size)) ∧ bs' = pre ++ { b with isFree := false } :: post := by
  induction bs generalizing bs' with
  | nil => simp [firstFit] at h
  | cons b bs ih =>
    rw [firstFit] at h
    split at h
    · rename_i hb
      cases h
      exact ⟨[], b, bs, rfl, hb.1, hb.2, rfl, by simp, rfl⟩
    · rename_i hb
      split at h
      · cases h
      · rename_i st cs hf
        cases h
        obtain ⟨pre, c, post, rfl, h1, h2, h3, h4, h5⟩ := ih hf
        refine ⟨b :: pre, c, post, rfl, h1, h2, h3, ?_, by simp [h5]⟩
        intro d hd
        rcases List.mem_cons.1 hd with rfl | hd
        · exact hb
        · exact h4 d hd

theorem firstFit_none {a : Nat} {bs : List Block} (h : firstFit a bs = none) :
    ∀ b ∈ bs, ¬(b.isFree = true ∧ a ≤ b.size) := by
  induction bs with
  | nil => simp
  | cons b bs ih =>
    rw [firstFit] at h
    split at h
    · cases h
    · rename_i hb
      split at h
      · rename_i hf
        intro c hc
        rcases List.mem_cons.1 hc with rfl | hc
        · exact hb
        · exact ih hf c hc
      · cases h

theorem firstFit_of_first {a : Nat} {pre post : List Block} {b : Block}
    (h1 : ∀ c ∈ pre, ¬(c.isFree = true ∧ a ≤ c.size)) (h2 : b.isFree = true) (h3 : a ≤ b.size) :
    firstFit a (pre ++ b :: post) = some (b.start, pre ++ { b with isFree := false } :: post) := by
  induction pre with
  | nil => simp [firstFit, h2, h3]
  | cons c pre ih =>
    have hc := h1 c (by simp)
    rw [List.cons_append, firstFit, if_neg hc, ih fun d hd => h1 d (by simp [hd])]
    rfl

theorem firstFit_of_none {a : Nat} {bs : List Block} (h : ∀ b ∈ bs, ¬(b.isFree = true ∧ a ≤ b.size)) :
    firstFit a bs = none := by
  cases hf : firstFit a bs with
  | none => rfl
  | some r =>
    obtain ⟨pre, b, post, rfl, h1, h2, -⟩ := firstFit_some hf
    exact absurd ⟨h1, h2⟩ (h b (by simp))

/-- Everything a successful allocation can do: reuse of the first fit, or a block appended. -/
theorem heapAlloc_ok {p : Params} {n : Int} {h h' : Heap} {start : Nat}
    (e : heapAlloc p n h = .ok (start, h')) :
    0 < n ∧
      ((∃ bs, firstFit (alignUp p n.toNat) h.blocks = some (start, bs) ∧ h' = { h with blocks := bs }) ∨
        (firstFit (alignUp p n.toNat) h.blocks = none ∧ start = h.hbuf.size ∧
          h.hbuf.size + alignUp p n.toNat ≤ p.memLimit ∧
          h' =
            { blocks := h.blocks ++ [{ start := h.hbuf.size, size := alignUp p n.toNat, isFree := false }]
              hbuf := h.hbuf.grow (h.hbuf.size + alignUp p n.toNat) })) := by
  unfold heapAlloc at e
  split at e
  · cases e
  · rename_i hn
    refine ⟨by omega, ?_⟩
    split at e
    · rename_i st bs hf
      cases e
      exact .inl ⟨bs, hf, rfl⟩
    · rename_i hf
      split at e
      · cases e
      · cases e
        exact .inr ⟨hf, rfl, by omega, rfl⟩

theorem heapFree_ok {ptr : Int} {h h' : Heap} (e : heapFree ptr h = .ok h') :
    (∃ b, h.blocks.find? (fun b => decide ((b.start : Int) = ptr)) = some b ∧ b.isFree = false) ∧
      h' =
        { blocks := dropTrailingFree (markFree ptr h.blocks)
          hbuf := h.hbuf.truncate (h.hbuf.size - sizeSum (trailingFree (markFree ptr h.blocks))) } := by
  unfold heapFree at e
  split at e
  · cases e
  · rename_i b hb
    split at e
    · cases e
    · rename_i hf
      cases e
      exact ⟨⟨b, hb, by simpa using hf⟩, rfl⟩

/-- The kept blocks and the trailing free run make up the list. -/
theorem dropTrailingFree_append (bs : List Block) :
    dropTrailingFree bs ++ (trailingFree bs).reverse = bs := by
  simp only [dropTrailingFree, trailingFree, ← List.reverse_append, List.takeWhile_append_dropWhile,
    List.reverse_reverse]

theorem trailingFree_free {bs : List Block} {b : Block} (h : b ∈ trailingFree bs) : b.isFree = true :=
  List.mem_takeWhile_imp (p := fun b : Block => b.isFree) h

theorem dropTrailingFree_last {bs : List Block} {b : Block} (h : (dropTrailingFree bs).getLast? = some b) :
    b.isFree = false := by
  simp only [dropTrailingFree, List.getLast?_reverse] at h
  have := List.head?_dropWhile_not (fun b : Block => b.isFree) bs.reverse
  rw [h] at this
  simpa using this

@[simp] theorem sizeSum_nil : sizeSum [] = 0 := rfl

@[simp] theorem sizeSum_cons (b : Block) (bs : List Block) : sizeSum (b :: bs) = b.size + sizeSum bs := by
  simp [sizeSum]

@[simp] theorem sizeSum_append (bs cs : List Block) : sizeSum (bs ++ cs) = sizeSum bs + sizeSum cs := by
  simp [sizeSum]

@[simp] theorem sizeSum_reverse (bs : List Block) : sizeSum bs.reverse = sizeSum bs := by
  simp [sizeSum]

/-- `align_up` gives the least multiple of the alignment that is not below the size (R72). -/
theorem alignUp_spec {p : Params} (h : 0 < p.heapAlign) (n : Nat) :
    p.heapAlign ∣ alignUp p n ∧ n ≤ alignUp p n ∧ alignUp p n < n + p.heapAlign := by
  refine ⟨Nat.dvd_mul_left _ _, ?_⟩
  have h1 := Nat.div_add_mod (n + (p.heapAlign - 1)) p.heapAlign
  have h2 := Nat.mod_lt (n + (p.heapAlign - 1)) h
  have h3 : p.heapAlign * ((n + (p.heapAlign - 1)) / p.heapAlign) = alignUp p n := Nat.mul_comm _ _
  omega

/-! ### The string scan -/

/-- A string found has no NUL in it, lies inside the scan, and is followed by a NUL. -/
theorem stringAt_some {m : Memory} {fuel a : Nat} {bs : List Byte} (h : stringAt m fuel a = some bs) :
    bs.length < fuel ∧ m.byte (a + bs.length) = 0#8 ∧ (∀ b ∈ bs, b ≠ 0#8) ∧
      bs = m.readBytes a bs.length := by
  induction fuel generalizing a bs with
  | zero => simp [stringAt] at h
  | succ fuel ih =>
    rw [stringAt] at h
    split at h
    · rename_i h0
      cases h
      exact ⟨by simp, by simpa using h0, by simp, by simp [Memory.readBytes]⟩
    · rename_i h0
      split at h
      · cases h
      · rename_i cs hc
        cases h
        obtain ⟨h1, h2, h3, h4⟩ := ih hc
        refine ⟨by simp; omega, ?_, ?_, ?_⟩
        · rw [List.length_cons, Nat.add_comm cs.length 1, ← Nat.add_assoc]; exact h2
        · intro b hb
          rcases List.mem_cons.1 hb with rfl | hb
          · exact h0
          · exact h3 b hb
        · rw [List.length_cons, Memory.readBytes, List.range_succ_eq_map]
          simp only [List.map_cons, List.map_map, Nat.add_zero, List.cons.injEq, true_and]
          conv_lhs => rw [h4]
          simp only [Memory.readBytes]
          apply List.map_congr_left
          intro k _
          simp only [Function.comp]
          congr 1
          omega

theorem stringAt_none {m : Memory} {fuel a : Nat} (h : stringAt m fuel a = none) :
    ∀ k < fuel, m.byte (a + k) ≠ 0#8 := by
  induction fuel generalizing a with
  | zero => simp
  | succ fuel ih =>
    rw [stringAt] at h
    split at h
    · cases h
    · rename_i h0
      split at h
      · rename_i hc
        intro k hk
        cases k with
        | zero => simpa using h0
        | succ k =>
          have := ih hc k (by omega)
          rwa [show a + (k + 1) = a + 1 + k by omega]
      · cases h

theorem printFrom_ok {p : Params} {m : Memory} {space : Space} {o : Int} {bs : List Byte}
    (h : printFrom p m space o = .ok bs) :
    0 ≤ o ∧ o < m.size ∧ ∃ cs, stringAt m (m.size - o.toNat) o.toNat = some cs ∧ validUtf8 cs = true ∧
      bs = cs ++ p.printTerminator := by
  unfold printFrom at h
  split at h
  · cases h
  · rename_i ho
    refine ⟨by omega, by omega, ?_⟩
    split at h
    · cases h
    · rename_i cs hc
      split at h
      · rename_i hu; cases h; exact ⟨cs, hc, hu, rfl⟩
      · cases h

end Sys2Proof.Machine
end

