-- ==== Sys2Proof/Laws/Step.lean ====
section
/-! SUPPORT. What `exec` and `step` can do, said once. -/

namespace Sys2Proof.Machine

/-- The effect of each instruction on the state whose pc is already advanced. -/
def effectOf : Instr → State → Except Fault State
  | .load rd imm, t => .ok (t.setReg rd (zext16 imm))
  | .add ra rb rd, t => writeChecked rd (t.int ra + t.int rb) t
  | .sub ra rb rd, t => writeChecked rd (t.int ra - t.int rb) t
  | .mul ra rb rd, t => writeChecked rd (t.int ra * t.int rb) t
  | .div ra rb rd, t => divide rd (t.int ra) (t.int rb) t
  | .eq ra rb, t => .ok (t.setEqf (eqResult (t.int ra) (t.int rb)))
  | .neq ra rb, t => .ok (t.setEqf (neqResult (t.int ra) (t.int rb)))
  | .gt ra rb, t => .ok (t.setEqf (gtResult (t.int ra) (t.int rb)))
  | .lt ra rb, t => .ok (t.setEqf (ltResult (t.int ra) (t.int rb)))
  | .gtq ra rb, t => .ok (t.setEqf (gtqResult (t.int ra) (t.int rb)))
  | .ltq ra rb, t => .ok (t.setEqf (ltqResult (t.int ra) (t.int rb)))
  | .jmp a, t => jumpTo (targetOf a) t
  | .jmpf d, t => jumpTo ((t.pc : Int) + deltaOf d) t
  | .jmpb d, t => jumpTo ((t.pc : Int) - deltaOf d) t
  | .jeq a, t => if t.eqf = true then jumpTo (targetOf a) t else .ok t
  | .jez r a, t => if t.int r = 0 then jumpTo (targetOf a) t else .ok t
  | .rjmp r, t => jumpTo (t.int r) t
  | .call a, t => callEffect a t
  | .ret, t => retEffect t
  | .sw r ra off sec, t => memWrite t sec (effectiveAddress t ra off) (wordBytes (t.reg r))
  | .lw r ra off sec, t => do
    let bs ← memRead t sec (effectiveAddress t ra off) 4
    .ok (t.setReg r (wordOfBytes bs))
  | .sb r ra off sec, t => memWrite t sec (effectiveAddress t ra off) [lowByte (t.reg r)]
  | .lb r ra off sec, t => do
    let bs ← memRead t sec (effectiveAddress t ra off) 1
    .ok (t.setReg r (zext8 (byteField bs 0)))
  | .not r, t => .ok (t.setReg r (~~~t.reg r))
  | .shiftl ra rb, t => .ok (t.setReg ra (shiftLeft (t.reg ra) (t.reg rb).toNat))
  | .shiftr ra rb, t => .ok (t.setReg ra (shiftRight t.params.shiftr (t.reg ra) (t.reg rb).toNat))
  | .and ra rb, t => .ok (t.setReg ra (t.reg ra &&& t.reg rb))
  | .or ra rb, t => .ok (t.setReg ra (t.reg ra ||| t.reg rb))
  | .sysc, t => syscall t
  | .push r, t => pushAndMove (t.reg r) t
  | .pop r, t => do
    let (v, u) ← popAndMove t
    .ok (u.setReg r v)

/-- Every instruction is its effect performed over its width (spec/30_encoding.md R130). -/
theorem exec_eq_perform (i : Instr) (s : State) : exec i s = perform i.width s (effectOf i) := by
  cases i <;> rfl

theorem exec_ok {i : Instr} {s t : State} (h : effectOf i (s.advance i.width) = .ok t) : exec i s = .next t := by
  rw [exec_eq_perform]; exact perform_ok h

theorem exec_error {i : Instr} {s : State} {f : Fault} (h : effectOf i (s.advance i.width) = .error f) :
    exec i s = .next (s.raise f) := by
  rw [exec_eq_perform]; exact perform_error h

/-- Everything an instruction can do. -/
theorem exec_cases {i : Instr} {s t : State} (h : exec i s = .next t) :
    effectOf i (s.advance i.width) = .ok t ∨ ∃ f, effectOf i (s.advance i.width) = .error f ∧ t = s.raise f := by
  rw [exec_eq_perform] at h; exact perform_cases h

/-- Everything a step can do (spec/30_encoding.md R130 to R133). -/
theorem step_cases {s t : State} (h : step s = .next t) :
    (s.status ≠ .running ∧ t = s) ∨
      (s.status = .running ∧
        ((s.pc = s.prog.size ∧ t = s.halt .endOfStream) ∨
          (s.prog.size < s.pc ∧ t = s.raise (.pcOutOfRange s.pc)) ∨
          (s.pc < s.prog.size ∧ ∃ e, decode s.params (instrBytes s) = .error e ∧
            t = s.raise (faultOfDecode s.pc s.prog.size e)) ∨
          (s.pc < s.prog.size ∧ ∃ i rest, decode s.params (instrBytes s) = .ok (i, rest) ∧
            exec i s = .next t))) := by
  unfold step fetch at h
  cases hs : s.status with
  | halted c => rw [hs] at h; cases h; exact .inl ⟨by simp, rfl⟩
  | faulted f a => rw [hs] at h; cases h; exact .inl ⟨by simp, rfl⟩
  | running =>
    rw [hs] at h
    refine .inr ⟨rfl, ?_⟩
    by_cases he : s.pc = s.prog.size
    · rw [if_pos he] at h; cases h; exact .inl ⟨he, rfl⟩
    · rw [if_neg he] at h
      by_cases hp : s.pc > s.prog.size
      · rw [if_pos hp] at h; cases h; exact .inr (.inl ⟨hp, rfl⟩)
      · rw [if_neg hp] at h
        cases hd : decode s.params (instrBytes s) with
        | error e => rw [hd] at h; cases h; exact .inr (.inr (.inl ⟨by omega, e, rfl, rfl⟩))
        | ok r =>
          obtain ⟨i, rest⟩ := r
          rw [hd] at h
          exact .inr (.inr (.inr ⟨by omega, i, rest, rfl, h⟩))

end Sys2Proof.Machine
end

