-- ==== Sys2Proof/Laws/Effects.lean ====
section
/-! SUPPORT. What the effects of the instructions can do, said once each: if an effect answers a state, then
which. -/

namespace Sys2Proof.Machine

/-- A chain of two operations that answers a value: the first answered one, and the second from it. -/
theorem bind_ok {ε α β : Type} {x : Except ε α} {f : α → Except ε β} {b : β} (h : (x >>= f) = .ok b) :
    ∃ a, x = .ok a ∧ f a = .ok b := by
  cases x with
  | error e => cases h
  | ok a => exact ⟨a, rfl, h⟩

theorem writeChecked_ok {rd : Reg} {v : Int} {t u : State} (h : writeChecked rd v t = .ok u) :
    t.fits v ∧ u = t.setReg rd (wrap32 v) := by
  obtain ⟨w, hw, hu⟩ := bind_ok h
  obtain ⟨rfl, hf⟩ := chk32_ok hw
  cases hu
  exact ⟨hf, rfl⟩

theorem writeChecked_within {rd : Reg} {v : Int} {t : State} (h : t.fits v) :
    writeChecked rd v t = .ok (t.setReg rd (wrap32 v)) := by
  rcases chk32_cases t.params v with ⟨_, e⟩ | ⟨h1, h2, _⟩
  · simp [writeChecked, e, bind, Except.bind]
  · rcases h with h | h
    · exact absurd h h1
    · rw [h] at h2; cases h2

theorem writeChecked_past {rd : Reg} {v : Int} {t : State} (h : ¬t.fits v) :
    writeChecked rd v t = .error (.arithmeticOverflow v) := by
  rcases chk32_cases t.params v with ⟨h1, _⟩ | ⟨_, _, e⟩
  · exact absurd h1 h
  · simp [writeChecked, e, bind, Except.bind]

theorem divide_ok {rd : Reg} {a b : Int} {t u : State} (h : divide rd a b t = .ok u) :
    b ≠ 0 ∧ ¬(a = -2147483648 ∧ b = -1) ∧
      u = { t.setReg rd (wrap32 (a.tdiv b)) with rem := wrap32 (a.tmod b) } := by
  unfold divide at h
  split at h
  · cases h
  · split at h
    · cases h
    · cases h; exact ⟨‹_›, ‹_›, rfl⟩

theorem callEffect_ok {a : Half} {u v : State} (h : callEffect a u = .ok v) :
    u.pc ≤ 2147483647 ∧
      ∃ u1 u2, pushAndMove (wrap32 u.pc) u = .ok u1 ∧ pushAndMove (u.reg bpReg) u1 = .ok u2 ∧
        v = { u2 with pc := a.toNat }.setReg bpReg (u2.reg spReg) := by
  unfold callEffect at h
  split at h
  · cases h
  · obtain ⟨u1, h1, h⟩ := bind_ok h
    obtain ⟨u2, h2, h⟩ := bind_ok h
    obtain ⟨u3, h3, h⟩ := bind_ok h
    simp only [targetOf, jumpTo_nat] at h3
    cases h3
    cases h
    exact ⟨by omega, u1, u2, h1, h2, rfl⟩

theorem retEffect_ok {u v : State} (h : retEffect u = .ok v) :
    ∃ bp u1 r u2, popAndMove u = .ok (bp, u1) ∧ popAndMove (u1.setReg bpReg bp) = .ok (r, u2) ∧
      0 ≤ r.toInt ∧ v = { u2 with pc := r.toInt.toNat } := by
  obtain ⟨⟨bp, u1⟩, h1, h⟩ := bind_ok h
  obtain ⟨⟨r, u2⟩, h2, h⟩ := bind_ok h
  obtain ⟨h0, rfl⟩ := jumpTo_ok h
  exact ⟨bp, u1, r, u2, h1, h2, h0, rfl⟩

/-- Everything a syscall can do (spec/46_syscall.md R271 to R279). -/
theorem syscall_ok {t u : State} (h : syscall t = .ok u) :
    (t.reg sysReg = t.params.syscodes.nop ∧ u = t) ∨
      (∃ bs, u = t.emit bs) ∨
      (t.reg sysReg = t.params.syscodes.exit ∧ u = t.halt .exit) ∨
      (∃ start hp, heapAlloc t.params (t.int argReg) t.heap = .ok (start, hp) ∧
        u = { t with heap := hp }.setReg sysReg (wrap32 start)) ∨
      ∃ hp, heapFree (t.int argReg) t.heap = .ok hp ∧ u = { t with heap := hp } := by
  simp only [syscall] at h
  split at h
  · cases h; exact .inl ⟨‹_›, rfl⟩
  split at h
  · obtain ⟨bs, _, h⟩ := bind_ok h; cases h; exact .inr (.inl ⟨bs, rfl⟩)
  split at h
  · cases h; exact .inr (.inr (.inl ⟨‹_›, rfl⟩))
  split at h
  · obtain ⟨⟨start, hp⟩, h1, h⟩ := bind_ok h
    cases h
    exact .inr (.inr (.inr (.inl ⟨start, hp, h1, rfl⟩)))
  split at h
  · obtain ⟨hp, h1, h⟩ := bind_ok h; cases h; exact .inr (.inr (.inr (.inr ⟨hp, h1, rfl⟩)))
  split at h
  · obtain ⟨bs, _, h⟩ := bind_ok h; cases h; exact .inr (.inl ⟨bs, rfl⟩)
  · cases h

theorem lwEffect_ok {r ra : Reg} {off : Byte} {sec : Section} {t u : State}
    (h : effectOf (.lw r ra off sec) t = .ok u) :
    ∃ bs, memRead t sec (effectiveAddress t ra off) 4 = .ok bs ∧ u = t.setReg r (wordOfBytes bs) := by
  obtain ⟨bs, h1, h⟩ := bind_ok h
  cases h
  exact ⟨bs, h1, rfl⟩

theorem lbEffect_ok {r ra : Reg} {off : Byte} {sec : Section} {t u : State}
    (h : effectOf (.lb r ra off sec) t = .ok u) :
    ∃ bs, memRead t sec (effectiveAddress t ra off) 1 = .ok bs ∧ u = t.setReg r (zext8 (byteField bs 0)) := by
  obtain ⟨bs, h1, h⟩ := bind_ok h
  cases h
  exact ⟨bs, h1, rfl⟩

theorem popEffect_ok {r : Reg} {t u : State} (h : effectOf (.pop r) t = .ok u) :
    ∃ v t', popAndMove t = .ok (v, t') ∧ u = t'.setReg r v := by
  obtain ⟨⟨v, t'⟩, h1, h⟩ := bind_ok h
  cases h
  exact ⟨v, t', h1, rfl⟩

end Sys2Proof.Machine
end

