-- ==== Sys2Proof/Laws/Heap.lean ====
section
/-! SUPPORT. Laws of the heap unit's block lists, and which syscall a code dispatches to. -/

namespace Sys2Proof.Machine

/-! ### Freeing a block (spec/20_memory.md R79) -/

theorem markFree_first {ptr : Int} {pre post : List Block} {b : Block}
    (h : ∀ c ∈ pre, (c.start : Int) ≠ ptr) (hb : (b.start : Int) = ptr) :
    markFree ptr (pre ++ b :: post) = pre ++ { b with isFree := true } :: post := by
  induction pre with
  | nil => simp [markFree, hb]
  | cons c cs ih =>
    have hc := h c (by simp)
    simp only [List.cons_append, markFree, hc, if_false, List.cons.injEq, true_and]
    exact ih fun d hd => h d (by simp [hd])

theorem find_first {ptr : Int} {pre post : List Block} {b : Block}
    (h : ∀ c ∈ pre, (c.start : Int) ≠ ptr) (hb : (b.start : Int) = ptr) :
    (pre ++ b :: post).find? (fun b => decide ((b.start : Int) = ptr)) = some b := by
  rw [List.find?_append, List.find?_eq_none.2 fun c hc => by simpa using h c hc]
  simp [hb]

/-- The maximal trailing run of free blocks, where the list is given split before it. -/
theorem trailing_split {kept freed : List Block} (h1 : ∀ c ∈ freed, c.isFree = true)
    (h2 : ∀ c, kept.getLast? = some c → c.isFree = false) :
    dropTrailingFree (kept ++ freed) = kept ∧ trailingFree (kept ++ freed) = freed.reverse := by
  have hstop : ∀ l : List Block, (∀ c, l.head? = some c → c.isFree = false) →
      (l.dropWhile fun b => b.isFree) = l ∧ (l.takeWhile fun b => b.isFree) = [] := by
    intro l hl
    cases l with
    | nil => simp
    | cons a l => have := hl a rfl; simp [this]
  have hk := hstop kept.reverse fun c hc => h2 c (by simpa using hc)
  have hf : ∀ c ∈ freed.reverse, c.isFree = true := fun c hc => h1 c (by simpa using hc)
  unfold dropTrailingFree trailingFree
  rw [List.reverse_append, List.dropWhile_append_of_pos hf, List.takeWhile_append_of_pos hf, hk.1, hk.2]
  simp

/-! ### Contiguity (spec/20_memory.md R71) -/

theorem contiguousFrom_append_one {start : Nat} {bs : List Block} (h : contiguousFrom start bs) {c : Block}
    (hc : c.start = start + sizeSum bs) : contiguousFrom start (bs ++ [c]) := by
  induction bs generalizing start with
  | nil => exact ⟨by simpa using hc, trivial⟩
  | cons b bs ih => exact ⟨h.1, ih h.2 (by rw [hc, sizeSum_cons]; omega)⟩

theorem contiguousFrom_left {start : Nat} {bs cs : List Block} (h : contiguousFrom start (bs ++ cs)) :
    contiguousFrom start bs := by
  induction bs generalizing start with
  | nil => trivial
  | cons b bs ih => exact ⟨h.1, ih h.2⟩

/-- Marking a block used or free moves no block. -/
theorem contiguousFrom_setFree {start : Nat} {pre post : List Block} {b : Block} (f : Bool)
    (h : contiguousFrom start (pre ++ b :: post)) :
    contiguousFrom start (pre ++ { b with isFree := f } :: post) := by
  induction pre generalizing start with
  | nil => exact h
  | cons c cs ih => exact ⟨h.1, ih h.2⟩

theorem starts_setFree {pre post : List Block} {b : Block} (f : Bool)
    (h : (pre ++ b :: post).Pairwise fun b c => b.start < c.start) :
    (pre ++ { b with isFree := f } :: post).Pairwise fun b c => b.start < c.start := by
  rw [List.pairwise_append, List.pairwise_cons] at *
  obtain ⟨h1, h2, h3⟩ := h
  refine ⟨h1, h2, fun x hx y hy => ?_⟩
  rcases List.mem_cons.1 hy with rfl | hy
  · exact h3 x hx b (by simp)
  · exact h3 x hx y (by simp [hy])

/-- Every block ends within the sum of the sizes. -/
theorem contiguousFrom_end_le {start : Nat} {bs : List Block} (h : contiguousFrom start bs) :
    ∀ b ∈ bs, b.start + b.size ≤ start + sizeSum bs := by
  induction bs generalizing start with
  | nil => intro b hb; cases hb
  | cons b bs ih =>
    intro c hc
    rw [sizeSum_cons]
    rcases List.mem_cons.1 hc with rfl | hc
    · have := h.1; omega
    · have := ih h.2 c hc; omega

/-! ### The dispatcher (spec/46_syscall.md R270, R271) -/

/-- Distinct codes dispatch each to its own syscall. -/
theorem syscall_dispatch {t : State} (hd : t.params.syscodesDistinct) :
    (t.reg sysReg = t.params.syscodes.nop → syscall t = .ok t) ∧
      (t.reg sysReg = t.params.syscodes.cprint → syscall t = sysCPrint t) ∧
      (t.reg sysReg = t.params.syscodes.exit → syscall t = .ok (t.halt .exit)) ∧
      (t.reg sysReg = t.params.syscodes.alloc → syscall t = sysAlloc t) ∧
      (t.reg sysReg = t.params.syscodes.free → syscall t = sysFree t) ∧
      (t.reg sysReg = t.params.syscodes.printString → syscall t = sysPrintString t) ∧
      (t.reg sysReg ∉ t.params.syscodes.toList →
        syscall t = .error (.unknownSyscall (t.reg sysReg).toInt)) := by
  simp only [Params.syscodesDistinct, SysCodes.toList, List.nodup_cons, List.mem_cons, List.not_mem_nil,
    not_or] at hd ⊢
  obtain ⟨⟨a1, a2, a3, a4, a5, -⟩, ⟨b1, b2, b3, b4, -⟩, ⟨c1, c2, c3, -⟩, ⟨d1, d2, -⟩, ⟨e1, -⟩, -⟩ := hd
  refine ⟨fun h => ?_, fun h => ?_, fun h => ?_, fun h => ?_, fun h => ?_, fun h => ?_, fun h => ?_⟩
  · simp only [syscall, h, if_true]
  · simp only [syscall, h, if_neg (Ne.symm a1), if_true]
  · simp only [syscall, h, if_neg (Ne.symm a2), if_neg (Ne.symm b1), if_true]
  · simp only [syscall, h, if_neg (Ne.symm a3), if_neg (Ne.symm b2), if_neg (Ne.symm c1), if_true]
  · simp only [syscall, h, if_neg (Ne.symm a4), if_neg (Ne.symm b3), if_neg (Ne.symm c2), if_neg (Ne.symm d1),
      if_true]
  · simp only [syscall, h, if_neg (Ne.symm a5), if_neg (Ne.symm b4), if_neg (Ne.symm c3), if_neg (Ne.symm d2),
      if_neg (Ne.symm e1), if_true]
  · obtain ⟨h1, h2, h3, h4, h5, h6, -⟩ := h
    simp only [syscall, if_neg h1, if_neg h2, if_neg h3, if_neg h4, if_neg h5, if_neg h6]

end Sys2Proof.Machine
end

