-- ==== Sys2Proof/Tests/Slice0.lean ====
section
/-! SUPPORT. Tests of the model: well-formedness, decoding of words written out from spec/30_encoding.md R102 and
R112, one step of each instruction (expected results from spec/95_test_vectors.md, whose vector each test names),
and witnesses of the hypotheses of the statements. -/

namespace Sys2Proof.Tests

open Sys2Proof.Machine

/-! ### Helpers -/

/-- The reset state with a program placed at offset 0. -/
def machine (prog : List Byte) : State := { State.initial Params.reference with prog := Memory.ofBytes prog }

/-- A register given a value. -/
def withReg (s : State) (r : Reg) (v : Word) : State := s.setReg r v

/-- A stack of bytes, SP at its end. -/
def withStack (s : State) (bs : List Byte) : State :=
  { s with stack := Memory.ofBytes bs }.setReg spReg (BitVec.ofNat 32 bs.length)

/-- One used block that holds the bytes. -/
def withHeap (s : State) (bs : List Byte) : State :=
  { s with heap := { blocks := [{ start := 0, size := bs.length, isFree := false }], hbuf := Memory.ofBytes bs } }

/-- The same machine with other parameters. -/
def withParams (s : State) (p : Params) : State := { s with params := p }

/-- The reference parameters with results that wrap, logical right shifts and 4-byte heap alignment. -/
def otherParams : Params :=
  { Params.reference with overflow := .wrap, shiftr := .logical, heapAlign := 4, memLimit := 64 }

/-- The state after one step. -/
def after (s : State) : State := (runOnce s).1

/-! ### Well-formedness: one ill-formed term for each check -/

theorem test_reference_params_wellFormed : Params.reference.WellFormed ∧ otherParams.WellFormed := by decide

theorem test_repeated_opcode_refused :
    ¬({ Params.reference with opcodes := referenceOpcodes.set 1 0x01 }).WellFormed := by decide

theorem test_repeated_syscode_refused :
    ¬({ Params.reference with syscodes := { referenceSyscodes with free := 3 } }).WellFormed := by decide

theorem test_heap_align_three_refused : ¬({ Params.reference with heapAlign := 3 }).WellFormed := by decide

theorem test_mem_limit_two_pow_31_refused :
    ¬({ Params.reference with memLimit := 2147483648 }).WellFormed := by decide

theorem test_register_byte_35_refused :
    Reg.ofByte 34 = .ok 34 ∧ Reg.ofByte 35 = .error (.badRegister 35) := by decide

theorem test_section_byte_2_refused :
    Section.ofByte 1 = .ok .heap ∧ Section.ofByte 2 = .error (.badSection 2) := by decide

/-! ### Decoding: words written out in binary -/

theorem test_decode_load :
    decode Params.reference [0b00000001, 0b00000101, 0b00010010, 0b00110100] = .ok (.load 5 0x1234, []) := by
  decide

theorem test_decode_arithmetic :
    decode Params.reference [0b00000010, 0b00000000, 0b00000001, 0b00000010] = .ok (.add 0 1 2, []) ∧
      decode Params.reference [0b00000011, 0b00000000, 0b00000011, 0b00100010] = .ok (.sub 0 3 34, []) ∧
      decode Params.reference [0b00000100, 0b00000001, 0b00000010, 0b00000100] = .ok (.mul 1 2 4, []) ∧
      decode Params.reference [0b00000101, 0b00100000, 0b00000001, 0b00000010] = .ok (.div 32 1 2, []) := by
  decide

theorem test_decode_comparison :
    decode Params.reference [0b00000110, 0b00000001, 0b00000010] = .ok (.eq 1 2, []) ∧
      decode Params.reference [0b00000111, 0b00000001, 0b00100001] = .ok (.neq 1 33, []) ∧
      decode Params.reference [0b00001000, 0b00000001, 0b00000010] = .ok (.gt 1 2, []) ∧
      decode Params.reference [0b00001001, 0b00000011, 0b00000010] = .ok (.lt 3 2, []) ∧
      decode Params.reference [0b00001010, 0b00000001, 0b00000010] = .ok (.gtq 1 2, []) ∧
      decode Params.reference [0b00001011, 0b00000001, 0b00000010] = .ok (.ltq 1 2, []) := by
  decide

theorem test_decode_control :
    decode Params.reference [0b00001100, 0b00000001, 0b00001010] = .ok (.jmp 266, []) ∧
      decode Params.reference [0b00001101, 0b11111111, 0b11111101] = .ok (.jmpf 0xFFFD, []) ∧
      decode Params.reference [0b00001110, 0b10000000, 0b00000000] = .ok (.jmpb 0x8000, []) ∧
      decode Params.reference [0b00001111, 0b00000000, 0b00010100] = .ok (.jeq 20, []) ∧
      decode Params.reference [0b00010000, 0b00000100, 0b00000000, 0b00011011] = .ok (.jez 4 27, []) ∧
      decode Params.reference [0b00010001, 0b00000100] = .ok (.rjmp 4, []) ∧
      decode Params.reference [0b00010010, 0b00000000, 0b00001110] = .ok (.call 14, []) ∧
      decode Params.reference [0b00010011, 0b00000001] = .ok (.ret, [1]) := by
  decide

theorem test_decode_memory :
    decode Params.reference [0b00010100, 0b00000101, 0b00100000, 0b00000100, 0b00000001] =
        .ok (.sw 5 32 4 .heap, []) ∧
      decode Params.reference [0b00010101, 0b00000110, 0b00100000, 0b11111111, 0b00000000] =
        .ok (.lw 6 32 255 .stack, []) ∧
      decode Params.reference [0b00010110, 0b00000010, 0b00000001, 0b00000011, 0b00000000] =
        .ok (.sb 2 1 3 .stack, []) ∧
      decode Params.reference [0b00010111, 0b00000011, 0b00000001, 0b00000000, 0b00000001] =
        .ok (.lb 3 1 0 .heap, []) ∧
      decode Params.reference [0b00011110, 0b00000001] = .ok (.push 1, []) ∧
      decode Params.reference [0b00011111, 0b00100001] = .ok (.pop 33, []) := by
  decide

theorem test_decode_bitwise :
    decode Params.reference [0b00011000, 0b00000010] = .ok (.not 2, []) ∧
      decode Params.reference [0b00011001, 0b00000001, 0b00000010] = .ok (.shiftl 1 2, []) ∧
      decode Params.reference [0b00011010, 0b00000001, 0b00000010] = .ok (.shiftr 1 2, []) ∧
      decode Params.reference [0b00011011, 0b00000001, 0b00000010] = .ok (.and 1 2, []) ∧
      decode Params.reference [0b00011100, 0b00000001, 0b00000010] = .ok (.or 1 2, []) := by
  decide

theorem test_decode_syscall : decode Params.reference [0b00011101] = .ok (.sysc, []) := by decide

/-- The numbering of spec/opcode_table.json: the first byte is bits 7..0. -/
theorem test_decode_table_word :
    decodeTableWord 40 0x0104200615 = some (.lw 6 32 4 .heap) ∧ decodeTableWord 8 0x20 = none := by decide

/-- A placed word is the one the next step runs (V-LD-1). -/
theorem test_fetch_word_runs : (after (State.reset.withFetchWord 32 0x02000001)).int 0 = 2 := by decide

/-! ### The step: spec/95_test_vectors.md V-STEP -/

/-- V-STEP-1. -/
theorem test_step_empty_program :
    after (machine []) = { machine [] with status := .halted .endOfStream } := by decide

/-- V-STEP-3. -/
theorem test_step_illegal_opcode :
    after (machine [0x20, 0x01, 0x02, 0x03]) =
      { machine [0x20, 0x01, 0x02, 0x03] with status := .faulted (.illegalOpcode 0x20) 0 } := by decide

/-- V-STEP-4. -/
theorem test_step_truncated :
    (after (machine [0x01, 0x00, 0x00])).status = .faulted (.truncatedInstruction 0x01 0 3) 0 := by decide

/-- V-STEP-7, V-STEP-8. -/
theorem test_step_first_bad_field :
    (after (machine [0x15, 0x23, 0x01, 0x00, 0x07])).status = .faulted (.invalidRegister 35) 0 ∧
      (after (machine [0x15, 0x00, 0x01, 0x00, 0x02])).status = .faulted (.invalidSection 2) 0 := by decide

/-- V-STEP-9. -/
theorem test_step_pc_past_end :
    (after (after (machine [0x0C, 0x00, 0x05]))).status = .faulted (.pcOutOfRange 5) 5 := by decide

/-- V-STEP-11, V-STEP-12: true after the last instruction, false in a terminal status. -/
theorem test_step_returns :
    (runOnce (machine [0x01, 0x00, 0x00, 0x05])).2 = true ∧
      runOnce (after (after (machine [0x01, 0x00, 0x00, 0x05]))) =
        (after (after (machine [0x01, 0x00, 0x00, 0x05])), false) := by decide

/-! ### One step of each instruction -/

/-- V-LD-2. -/
theorem test_load_unsigned :
    (after (machine [0x01, 0x05, 0xFF, 0xFF])).int 5 = 65535 ∧
      (after (machine [0x01, 0x05, 0xFF, 0xFF])).pc = 4 := by decide

/-- V-LD-6. -/
theorem test_load_sp :
    (after (machine [0x01, 0x21, 0x01, 0x00])).int 33 = 256 := by decide

/-- V-AR-4. -/
theorem test_add :
    (after (withReg (withReg (machine [0x02, 0x00, 0x01, 0x02]) 0 (-5)) 1 3)).int 2 = -2 := by decide

/-- V-AR-2. -/
theorem test_add_overflow :
    (after (withReg (withReg (machine [0x02, 0x00, 0x01, 0x02]) 0 0x7FFFFFFF) 1 1)).status =
      .faulted (.arithmeticOverflow 2147483648) 0 := by decide

/-- V-AR-6. -/
theorem test_sub_destination_is_source :
    (after (withReg (withReg (machine [0x03, 0x00, 0x03, 0x00]) 0 5) 3 1)).int 0 = 4 := by decide

/-- V-AR-7. -/
theorem test_sub_wraps :
    (after (withParams (withReg (withReg (machine [0x03, 0x00, 0x01, 0x02]) 0 0x80000000) 1 1) otherParams)).int 2 =
      2147483647 := by decide

/-- V-AR-10. -/
theorem test_mul :
    (after (withReg (withReg (machine [0x04, 0x01, 0x02, 0x04]) 1 (-3)) 2 7)).int 4 = -21 := by decide

/-- V-AR-12. -/
theorem test_mul_wraps :
    (after (withParams (withReg (withReg (machine [0x04, 0x01, 0x02, 0x04]) 1 46341) 2 46341) otherParams)).int 4 =
      -2147479015 := by decide

/-- V-AR-14. -/
theorem test_div_rounds_toward_zero :
    (after (withReg (withReg (machine [0x05, 0x00, 0x01, 0x02]) 0 (-7)) 1 2)).int 2 = -3 ∧
      (after (withReg (withReg (machine [0x05, 0x00, 0x01, 0x02]) 0 (-7)) 1 2)).rem.toInt = -1 := by decide

/-- V-AR-18. -/
theorem test_div_by_zero :
    (after (withReg (machine [0x05, 0x00, 0x01, 0x02]) 0 7)).status = .faulted .divideByZero 0 ∧
      (after (withReg (machine [0x05, 0x00, 0x01, 0x02]) 0 7)).pc = 0 := by decide

/-- V-CMP-1. -/
theorem test_eq :
    (after (withReg (withReg (machine [0x06, 0x01, 0x02]) 1 4) 2 4)).eqf = true := by decide

/-- V-CMP-4. -/
theorem test_neq :
    (after (withReg (machine [0x07, 0x01, 0x01]) 1 4)).eqf = false := by decide

/-- V-CMP-5. -/
theorem test_gt_signed :
    (after (withReg (withReg (machine [0x08, 0x01, 0x02]) 1 0) 2 (-1))).eqf = true := by decide

/-- V-CMP-9. -/
theorem test_lt_equal :
    (after (withReg (withReg (machine [0x09, 0x01, 0x02]) 1 3) 2 3)).eqf = false := by decide

/-- V-CMP-10. -/
theorem test_gtq_equal :
    (after (withReg (withReg (machine [0x0A, 0x01, 0x02]) 1 3) 2 3)).eqf = true := by decide

/-- V-CMP-14. -/
theorem test_ltq_signed :
    (after (withReg (withReg (machine [0x0B, 0x01, 0x02]) 1 (-1)) 2 0x7FFFFFFF)).eqf = true := by decide

/-- V-CF-3. -/
theorem test_jmp :
    (after (machine [0x0C, 0xFF, 0xFF])).pc = 65535 := by decide

/-- V-CF-6. -/
theorem test_jmpf_back :
    (after (machine [0x0D, 0xFF, 0xFD])).pc = 0 := by decide

/-- V-CF-6b. -/
theorem test_jmpf_negative :
    (after (machine [0x0D, 0xFF, 0xFC])).status = .faulted (.pcOutOfRange (-1)) 0 := by decide

/-- V-CF-9. -/
theorem test_jmpb_least_delta :
    (after (machine [0x0E, 0x80, 0x00])).pc = 32771 := by decide

/-- V-CF-8. -/
theorem test_jmpb_negative :
    (after (machine [0x0E, 0x00, 0x05])).status = .faulted (.pcOutOfRange (-2)) 0 := by decide

/-- V-CF-11. -/
theorem test_jeq_taken :
    (after (State.setEqf (machine [0x0F, 0x00, 0x14]) true)).pc = 20 ∧
      (after (State.setEqf (machine [0x0F, 0x00, 0x14]) true)).eqf = true := by decide

/-- V-CF-12. -/
theorem test_jeq_falls_through :
    (after (machine [0x0F, 0x00, 0x14])).pc = 3 := by decide

/-- V-CF-13. -/
theorem test_jez_taken :
    (after (machine [0x10, 0x00, 0x00, 0x1B])).pc = 27 := by decide

/-- V-CF-14. -/
theorem test_jez_falls_through :
    (after (withReg (machine [0x10, 0x00, 0x00, 0x1B]) 0 (-1))).pc = 4 := by decide

/-- V-CF-18. -/
theorem test_rjmp :
    (after (withReg (machine [0x11, 0x04]) 4 100000)).pc = 100000 := by decide

/-- V-CF-17. -/
theorem test_rjmp_negative :
    (after (withReg (machine [0x11, 0x04]) 4 (-1))).status = .faulted (.pcOutOfRange (-1)) 0 := by decide

/-- V-CF-20. -/
theorem test_call :
    (after (withReg (withStack (machine [0x12, 0x00, 0x0E]) (List.replicate 8 0)) 34 5)).stack.toBytes =
        [0, 0, 0, 0, 0, 0, 0, 0, 3, 0, 0, 0, 5, 0, 0, 0] ∧
      (after (withReg (withStack (machine [0x12, 0x00, 0x0E]) (List.replicate 8 0)) 34 5)).int 33 = 16 ∧
      (after (withReg (withStack (machine [0x12, 0x00, 0x0E]) (List.replicate 8 0)) 34 5)).int 34 =
        16 := by decide

/-- V-CF-25. -/
theorem test_call_sp_overflow :
    (after (withReg (machine [0x12, 0x00, 0x0E]) 33 2147483644)).status =
      .faulted (.arithmeticOverflow 2147483648) 0 ∧
      (after (withReg (machine [0x12, 0x00, 0x0E]) 33 2147483644)).stack.toBytes = [] := by decide

/-- V-CF-21. -/
theorem test_ret :
    (after (withStack (machine [0x13]) [3, 0, 0, 0, 5, 0, 0, 0])).pc = 3 ∧
      (after (withStack (machine [0x13]) [3, 0, 0, 0, 5, 0, 0, 0])).int 34 = 5 ∧
      (after (withStack (machine [0x13]) [3, 0, 0, 0, 5, 0, 0, 0])).int 33 = 0 := by decide

/-- V-CF-24. -/
theorem test_ret_short_stack :
    (after (withStack (machine [0x13]) [0x0A, 0, 7, 0, 0, 0])).pc = 0 ∧
      (after (withStack (machine [0x13]) [0x0A, 0, 7, 0, 0, 0])).int 34 = 7 ∧
      (after (withStack (machine [0x13]) [0x0A, 0, 7, 0, 0, 0])).stack.toBytes = [0x0A, 0] := by decide

/-- V-MEM-12. -/
theorem test_sw_grows_stack :
    (after (withReg (machine [0x14, 0x02, 0x01, 0x06, 0x00]) 2 (-2))).stack.toBytes =
      [0, 0, 0, 0, 0, 0, 0xFE, 0xFF, 0xFF, 0xFF] := by decide

/-- V-MEM-11. -/
theorem test_sw_heap_out_of_bounds :
    (after (machine [0x14, 0x02, 0x01, 0x00, 0x01])).status =
      .faulted (.addressOutOfRange .heap 0 4) 0 := by decide

/-- V-MEM-4. -/
theorem test_lw_misaligned :
    (after (withReg (withHeap (machine [0x15, 0x02, 0x01, 0x00, 0x01]) [0x00, 0x11, 0x22, 0x33, 0x44, 0x55, 0x66, 0x77]) 1 1)).int 2 =
      1144201745 := by decide

/-- V-MEM-6. -/
theorem test_lw_negative_address :
    (after (withReg (withHeap (machine [0x15, 0x02, 0x01, 0x00, 0x01]) [0, 0, 0, 0, 0, 0, 0, 0]) 1 (-1))).status =
      .faulted (.addressOutOfRange .heap (-1) 4) 0 := by decide

/-- V-MEM-14. -/
theorem test_sb_low_byte :
    (after (withReg (machine [0x16, 0x02, 0x01, 0x03, 0x00]) 2 0x141)).stack.toBytes =
      [0, 0, 0, 0x41] := by decide

/-- V-MEM-18. -/
theorem test_sb_negative_address :
    (after (withReg (machine [0x16, 0x02, 0x01, 0x02, 0x00]) 1 (-3))).status =
      .faulted (.addressOutOfRange .stack (-1) 1) 0 := by decide

/-- V-MEM-16. -/
theorem test_lb_zero_extends :
    (after (withStack (machine [0x17, 0x03, 0x01, 0x02, 0x00]) [0, 0, 0x80])).int 3 = 128 := by decide

/-- V-MEM-17. -/
theorem test_lb_at_heap_end :
    (after (withReg (withHeap (machine [0x17, 0x03, 0x01, 0x00, 0x01]) [0, 0, 0, 0, 0, 0, 0, 0]) 1 8)).status =
      .faulted (.addressOutOfRange .heap 8 1) 0 := by decide

/-- V-PP-2. -/
theorem test_push_old_sp :
    (after (withStack (machine [0x1E, 0x21]) [0, 0, 0, 0])).stack.toBytes = [0, 0, 0, 0, 4, 0, 0, 0] ∧
      (after (withStack (machine [0x1E, 0x21]) [0, 0, 0, 0])).int 33 = 8 := by decide

/-- V-PP-9. -/
theorem test_push_at_buffer_end :
    (after (withReg (withReg (withStack (machine [0x1E, 0x01]) (List.replicate 12 0)) 33 0) 1 1)).stack.size =
      16 ∧
      (after (withReg (withReg (withStack (machine [0x1E, 0x01]) (List.replicate 12 0)) 33 0) 1 1)).int 33 =
        4 := by decide

/-- V-PP-7. -/
theorem test_pop_into_sp :
    (after (withStack (machine [0x1F, 0x21]) [0x10, 0, 0, 0])).int 33 = 16 ∧
      (after (withStack (machine [0x1F, 0x21]) [0x10, 0, 0, 0])).stack.size = 0 := by decide

/-- V-PP-6. -/
theorem test_pop_short_stack :
    (after (withReg (withStack (machine [0x1F, 0x05]) [0xAA, 0xBB, 0xCC]) 5 9)).int 5 = 0 ∧
      (after (withReg (withStack (machine [0x1F, 0x05]) [0xAA, 0xBB, 0xCC]) 5 9)).int 33 = -1 ∧
      (after (withReg (withStack (machine [0x1F, 0x05]) [0xAA, 0xBB, 0xCC]) 5 9)).stack.toBytes =
        [0xAA, 0xBB, 0xCC] := by decide

/-- V-BIT-4. -/
theorem test_not :
    (after (withReg (machine [0x18, 0x02]) 2 0x7FFFFFFF)).int 2 = -2147483648 := by decide

/-- V-BIT-7. -/
theorem test_shiftl :
    (after (withReg (withReg (machine [0x19, 0x01, 0x02]) 1 1) 2 31)).int 1 = -2147483648 := by decide

/-- V-BIT-8. -/
theorem test_shiftl_amount_not_masked :
    (after (withReg (withReg (machine [0x19, 0x01, 0x02]) 1 1) 2 32)).int 1 = 0 := by decide

/-- V-BIT-20. -/
theorem test_shiftr_arithmetic :
    (after (withReg (withReg (machine [0x1A, 0x01, 0x02]) 1 (-7)) 2 1)).int 1 = -4 := by decide

/-- V-BIT-20. -/
theorem test_shiftr_logical :
    (after (withParams (withReg (withReg (machine [0x1A, 0x01, 0x02]) 1 (-7)) 2 1) otherParams)).int 1 =
      2147483644 := by decide

/-- V-BIT-21. -/
theorem test_and :
    (after (withReg (withReg (machine [0x1B, 0x01, 0x02]) 1 12) 2 10)).int 1 = 8 := by decide

/-- V-BIT-23. -/
theorem test_or :
    (after (withReg (withReg (machine [0x1C, 0x01, 0x02]) 1 12) 2 10)).int 1 = 14 := by decide

/-- V-SYS-17, with the size rounded up to 16. -/
theorem test_sysc_alloc :
    (after (withReg (withReg (withHeap (machine [0x1D]) [0, 0, 0, 0, 0, 0, 0, 0]) 32 3) 0 9)).int 32 = 8 ∧
      (after (withReg (withReg (withHeap (machine [0x1D]) [0, 0, 0, 0, 0, 0, 0, 0]) 32 3) 0 9)).heap.blocks =
        [⟨0, 8, false⟩, ⟨8, 16, false⟩] := by decide

/-- V-SYS-3. -/
theorem test_sysc_print :
    (after ({ withReg (withReg (machine [0x1D]) 32 1) 0 1 with ro := Memory.ofBytes [0x68, 0x69, 0x00] })).out =
      [0x69] := by decide

/-! ### Witnesses: concrete states and operands that meet the hypotheses of the statements, clause by clause -/

/-- A state that meets the invariant: a free block before a used one, and a call frame on the stack. -/
def busy : State :=
  { withStack (machine [0x13]) [3, 0, 0, 0, 5, 0, 0, 0] with
    heap :=
      { blocks := [⟨0, 8, true⟩, ⟨8, 16, false⟩], hbuf := Memory.ofBytes (List.replicate 24 0xAA) } }

/-- A state that runs one `SYSC` of the code with the argument. -/
def calling (code arg : Word) : State := withReg (withReg (machine [0x1D]) 32 code) 0 arg

/-- Two used blocks. -/
def twoBlocks (s : State) : State :=
  { s with
    heap :=
      { blocks := [⟨0, 8, false⟩, ⟨8, 16, false⟩], hbuf := Memory.ofBytes (List.replicate 24 0xAA) } }

theorem witness_contiguous : contiguousFrom 0 busy.heap.blocks := ⟨rfl, rfl, trivial⟩

theorem witness_busy_heap_inv : busy.heap.Inv busy.params :=
  ⟨witness_contiguous, by decide, by decide, by intro b h; cases h; rfl, by decide, by decide, by decide⟩

/-- StepKeepsInvariant, LoadKeepsInvariant. -/
theorem witness_busy_inv : busy.Inv :=
  ⟨by decide, by decide, by decide, by decide, by decide, witness_busy_heap_inv⟩

/-- StepKeepsInvariant, ProgramIsNeverWritten, RemainderAndOutputAreUnobservable: a step from it answers a next
state. -/
theorem witness_busy_steps : step busy = .next (after busy) ∧ (after busy).pc = 3 := ⟨rfl, by decide⟩

/-- DecodeOfEncodeIsIdentity; the syscall statements. -/
theorem witness_distinct : Params.reference.opcodesDistinct ∧ Params.reference.syscodesDistinct := by decide

/-- DecodedBytesAreTheEncoding, with bytes left over. -/
theorem witness_decoded : decode Params.reference [0x1E, 0x22, 0x00] = .ok (.push 34, [0]) := by decide

/-- StepRunsDecodedInstruction, for an instruction that ends at the stream's end and one that does not. -/
theorem witness_runs_decoded :
    ((machine [0x13]).status = .running ∧ (machine [0x13]).pc < (machine [0x13]).prog.size ∧
        decode (machine [0x13]).params (instrBytes (machine [0x13])) = .ok (.ret, [])) ∧
      decode (machine [0x13, 0x00]).params (instrBytes (machine [0x13, 0x00])) = .ok (.ret, [0]) := by decide

/-- StepRunsEncodedInstruction, for the longest instruction at the stream's end. -/
theorem witness_runs_encoded :
    ∀ k < (Instr.lw 6 32 4 .heap).width,
      (machine [0x15, 0x06, 0x20, 0x04, 0x01]).prog.byte? (0 + k) =
        (encode Params.reference (.lw 6 32 4 .heap))[k]? := by decide

/-- StepAtAndPastStreamEnd: at the end, and one past it. -/
theorem witness_stream_end :
    (machine []).status = .running ∧ (machine []).pc = (machine []).prog.size ∧
      ({ machine [0x13] with pc := 2 }).prog.size < ({ machine [0x13] with pc := 2 }).pc := by decide

/-- TerminalStatusStays: both terminal statuses. -/
theorem witness_terminal :
    ((machine []).halt .exit).status ≠ .running ∧ ((machine []).raise .divideByZero).status ≠ .running := by decide

/-- FetchFaultsOnOpcodeAndLength: the bytes beside the map, and an instruction one byte short. -/
theorem witness_fetch_faults :
    Params.reference.mnemonicOf 0x00 = none ∧ Params.reference.mnemonicOf 0x20 = none ∧
      Params.reference.mnemonicOf 0x1F = some .pop ∧
      Params.reference.mnemonicOf ((machine [0x14, 0, 0, 0]).prog.byte 0) = some .sw ∧
      (machine [0x14, 0, 0, 0]).prog.size < 0 + Mnemonic.sw.width := by decide

/-- BadOperandFieldFaults: the last register field with every earlier one 34, then the section field. -/
theorem witness_bad_field :
    (0 + Mnemonic.add.width ≤ (machine [0x02, 34, 34, 35]).prog.size ∧
        Params.reference.mnemonicOf ((machine [0x02, 34, 34, 35]).prog.byte 0) = some .add ∧
        3 ∈ registerFields Mnemonic.add.format ∧
        (∀ j ∈ registerFields Mnemonic.add.format,
          j < 3 → ((machine [0x02, 34, 34, 35]).prog.byte (0 + j)).toNat < 35) ∧
        35 ≤ ((machine [0x02, 34, 34, 35]).prog.byte (0 + 3)).toNat) ∧
      (Mnemonic.sb.format = .rm ∧
        (∀ j ∈ registerFields Mnemonic.sb.format,
          ((machine [0x16, 34, 34, 0, 2]).prog.byte (0 + j)).toNat < 35) ∧
        2 ≤ ((machine [0x16, 34, 34, 0, 2]).prog.byte (0 + 4)).toNat) := by decide

/-- FaultIsPreciseAndFinal. -/
theorem witness_fault :
    (machine [0x05, 0, 1, 2]).status = .running ∧
      step (machine [0x05, 0, 1, 2]) = .next ((machine [0x05, 0, 1, 2]).raise .divideByZero) := ⟨rfl, rfl⟩

/-- RegistersChangeOnlyAtDestinations: a call, which writes two registers, and a third register. -/
theorem witness_frame_registers :
    exec (.call 14) (machine [0x12, 0x00, 0x0E]) = .next (after (machine [0x12, 0x00, 0x0E])) ∧
      (32 : Reg) ∉ destinations (.call 14) := ⟨rfl, by decide⟩

/-- FlagAndRemainderWriters, MemoryFrameOfNonWriters, OutputOnlyGrowsBySyscalls: LOAD meets every hypothesis. -/
theorem witness_frame_load :
    exec (.load 3 7) (machine []) = .next (((machine []).advance 4).setReg 3 7) ∧
      (Instr.load 3 7).mnemonic ∉ comparisons ∧ (Instr.load 3 7).mnemonic ≠ .div ∧ Instr.load 3 7 ≠ .sysc ∧
      ¬mayWriteStack (.load 3 7) ∧ ¬mayWriteHeap (.load 3 7) :=
  ⟨rfl, by decide, by decide, by decide, by simp [mayWriteStack, Instr.mnemonic], by simp [mayWriteHeap]⟩

/-- StatusAndPcFrame: an instruction that is no transfer and does not fail. -/
theorem witness_frame_pc :
    (machine []).status = .running ∧ exec (.load 3 7) (machine []) = .next (((machine []).advance 4).setReg 3 7) ∧
      (Instr.load 3 7).mnemonic ∉ transfers ∧ (((machine []).advance 4).setReg 3 7).failed = false :=
  ⟨rfl, rfl, by decide, by decide⟩

/-- AddResult, SubResult, MulResult: the greatest sum that fits, the least that does not, and one that wraps. -/
theorem witness_arithmetic :
    (machine []).fits ((withReg (withReg (machine []) 0 0x7FFFFFFE) 1 1).int 0 + 1) ∧
      ¬(machine []).fits ((withReg (machine []) 0 0x7FFFFFFF).int 0 + 1) ∧
      (withParams (machine []) otherParams).fits ((withReg (machine []) 0 0x7FFFFFFF).int 0 + 1) ∧
      (machine []).fits ((withReg (machine []) 0 0x80000001).int 0 - 1) ∧
      ¬(machine []).fits ((withReg (machine []) 0 0x80000000).int 0 - 1) ∧
      (machine []).fits ((withReg (machine []) 0 46340).int 0 * 46340) ∧
      ¬(machine []).fits ((withReg (machine []) 0 46341).int 0 * 46341) := by decide

/-- DivResult: each clause, -2^31 by -1 beside its neighbours. -/
theorem witness_div :
    (machine []).int 1 = 0 ∧
      ((withReg (machine []) 0 0x80000000).int 0 = -2147483648 ∧ (withReg (machine []) 1 (-1)).int 1 = -1) ∧
      ((withReg (machine []) 1 1).int 1 ≠ 0 ∧
        ¬((withReg (machine []) 0 0x80000000).int 0 = -2147483648 ∧ (withReg (machine []) 1 1).int 1 = -1)) := by decide

/-- DivQuotientRemainderLaw: -7 by 2. -/
theorem witness_div_law :
    exec (.div 0 1 2) (withReg (withReg (machine [0x05, 0, 1, 2]) 0 (-7)) 1 2) =
        .next (after (withReg (withReg (machine [0x05, 0, 1, 2]) 0 (-7)) 1 2)) ∧
      (after (withReg (withReg (machine [0x05, 0, 1, 2]) 0 (-7)) 1 2)).failed = false := ⟨rfl, by decide⟩

/-- RelativeJumps, RegisterJump: targets 0 and -1. -/
theorem witness_jumps :
    ((machine []).pc : Int) + 3 + (0xFFFD : Half).toInt = 0 ∧ ((machine []).pc : Int) + 3 + (0xFFFC : Half).toInt = -1 ∧
      ((machine []).pc : Int) + 3 - (3 : Half).toInt = 0 ∧ ((machine []).pc : Int) + 3 - (4 : Half).toInt = -1 ∧
      (withReg (machine []) 4 0).int 4 = 0 ∧ (withReg (machine []) 4 (-1)).int 4 = -1 := by decide

/-- CallResult: the clauses in order, each at the edge of its range. -/
theorem witness_call :
    (busy.stack.wf ∧ busy.pc + 3 ≤ 2147483647 ∧ busy.stack.size + 8 ≤ busy.params.memLimit ∧
        busy.fits (busy.int spReg + 4) ∧ busy.fits (busy.int spReg + 8)) ∧
      2147483647 < ({ busy with pc := 2147483645 }).pc + 3 ∧
      (withParams busy { otherParams with memLimit := 11 }).params.memLimit < busy.stack.size + 4 ∧
      ¬busy.fits ((withReg busy 33 2147483644).int spReg + 4) ∧
      (busy.stack.size + 4 ≤ (withParams busy { otherParams with memLimit := 12 }).params.memLimit ∧
        (withParams busy { otherParams with memLimit := 12 }).params.memLimit < busy.stack.size + 8) ∧
      busy.fits ((withReg busy 33 2147483640).int spReg + 4) ∧
      ¬busy.fits ((withReg busy 33 2147483640).int spReg + 8) := by decide

/-- RetResult: a whole frame, a frame of one word, an empty stack, and the three faults. -/
theorem witness_ret :
    (busy.fits (busy.int spReg - 4) ∧ busy.fits (busy.int spReg - 8) ∧
        busy.stack.toBytes = [] ++ wordBytes 3 ++ wordBytes 5 ∧ 0 ≤ (3 : Word).toInt) ∧
      (withStack busy [9, 9, 9, 5, 0, 0, 0]).stack.toBytes = [9, 9, 9] ++ wordBytes 5 ∧
      (withStack busy [9, 9, 9]).stack.toBytes = [9, 9, 9] ∧
      ¬busy.fits ((withReg busy 33 0x80000003).int spReg - 4) ∧
      (busy.fits ((withReg busy 33 0x80000004).int spReg - 4) ∧
        ¬busy.fits ((withReg busy 33 0x80000004).int spReg - 8)) ∧
      (withStack busy [0xFF, 0xFF, 0xFF, 0xFF, 5, 0, 0, 0]).stack.toBytes = [] ++ wordBytes (-1) ++ wordBytes 5 := by
  decide

/-- RetUndoesCall: a call, and another state with its stack and SP. -/
theorem witness_ret_undoes_call :
    exec (.call 14) (machine [0x12, 0x00, 0x0E]) = .next (after (machine [0x12, 0x00, 0x0E])) ∧
      (after (machine [0x12, 0x00, 0x0E])).failed = false ∧ (machine [0x12, 0x00, 0x0E]).stack.wf ∧
      (withReg (after (machine [0x12, 0x00, 0x0E])) 5 1).stack = (after (machine [0x12, 0x00, 0x0E])).stack ∧
      (withReg (after (machine [0x12, 0x00, 0x0E])) 5 1).reg spReg =
        (after (machine [0x12, 0x00, 0x0E])).reg spReg := ⟨rfl, by decide⟩

/-- LwResult, LbResult: the last word and byte of the section, one past each, and a negative address. -/
theorem witness_loads :
    ((withReg busy 1 20).int 1 + (0 : Byte).toNat = (20 : Nat) ∧ 20 + 4 ≤ (busy.buffer .heap).size) ∧
      ((busy.buffer .heap).size : Int) < (withReg busy 1 21).int 1 + (0 : Byte).toNat + 4 ∧
      ((withReg busy 1 23).int 1 + (0 : Byte).toNat = (23 : Nat) ∧ 23 + 1 ≤ (busy.buffer .heap).size) ∧
      ((busy.buffer .heap).size : Int) < (withReg busy 1 24).int 1 + (0 : Byte).toNat + 1 ∧
      (withReg busy 1 (-1)).int 1 + (0 : Byte).toNat < 0 ∧ (withReg busy 1 (-255)).int 1 + (255 : Byte).toNat = 0 := by
  decide

/-- SwResult, SbResult: inside the heap and past its end, a stack store that grows, and one past the limit. -/
theorem witness_stores :
    ((busy.buffer .heap).wf ∧ (busy.buffer .stack).wf) ∧
      ((withReg busy 1 20).int 1 + (0 : Byte).toNat = (20 : Nat) ∧ 20 + 4 ≤ busy.heap.hbuf.size) ∧
      (busy.heap.hbuf.size : Int) < (withReg busy 1 21).int 1 + (0 : Byte).toNat + 4 ∧
      (busy.heap.hbuf.size : Int) < (withReg busy 1 24).int 1 + (0 : Byte).toNat + 1 ∧
      ((withReg (withParams busy otherParams) 1 60).int 1 + (0 : Byte).toNat = (60 : Nat) ∧
        60 + 4 ≤ (withParams busy otherParams).params.memLimit) ∧
      (busy.stack.size < 61 + 4 ∧ (withParams busy otherParams).params.memLimit < 61 + 4) ∧
      (busy.stack.size < 64 + 1 ∧ (withParams busy otherParams).params.memLimit < 64 + 1) := by decide

/-- PushResult: the last push within the limit, the first past it, and SP at its end. -/
theorem witness_push :
    (busy.stack.wf ∧ busy.stack.size + 4 ≤ busy.params.memLimit ∧ busy.fits (busy.int spReg + 4)) ∧
      (withParams busy { otherParams with memLimit := 11 }).params.memLimit < busy.stack.size + 4 ∧
      ¬busy.fits ((withReg busy 33 2147483644).int spReg + 4) := by decide

/-- PopResult: a whole word, three bytes, and SP at its end. -/
theorem witness_pop :
    (busy.fits (busy.int spReg - 4) ∧ busy.stack.toBytes = [3, 0, 0, 0] ++ wordBytes 5) ∧
      (withStack busy [9, 9, 9]).stack.toBytes = [9, 9, 9] ∧
      ¬busy.fits ((withReg busy 33 0x80000003).int spReg - 4) := by decide

/-- StackUnitRoundTrip. -/
theorem witness_stack_unit :
    busy.stack.wf ∧ pushWord Params.reference (-2) busy.stack = .ok (busy.stack.append (wordBytes (-2))) ∧
      pushByte Params.reference 7 busy.stack = .ok (busy.stack.append [7]) := by decide

/-- ShiftLeftResult, ShiftRightResult: amounts 31 and 32, and each kind of right shift. -/
theorem witness_shifts :
    ((withReg busy 2 31).reg 2).toNat < 32 ∧ 32 ≤ ((withReg busy 2 32).reg 2).toNat ∧
      busy.params.shiftr = .arithmetic ∧ (withParams busy otherParams).params.shiftr = .logical := by decide

/-- NopExitAndUnknownSyscalls: one state for each clause. -/
theorem witness_syscalls :
    (calling 0 0).reg sysReg = (calling 0 0).params.syscodes.nop ∧
      (calling 2 0).reg sysReg = (calling 2 0).params.syscodes.exit ∧
      (calling 6 0).reg sysReg ∉ (calling 6 0).params.syscodes.toList := by decide

/-- AllocAppendsBlock: a free block too small, within the limit and past it. -/
theorem witness_alloc_appends :
    ({ calling 3 9 with heap := busy.heap }).params.WellFormed ∧
      (calling 3 9).reg sysReg = Params.reference.syscodes.alloc ∧ busy.heap.hbuf.wf ∧
      0 < (calling 3 9).int argReg ∧ Params.reference.heapAlign ∣ 16 ∧ (calling 3 9).int argReg ≤ (16 : Nat) ∧
      ((16 : Nat) : Int) < (calling 3 9).int argReg + Params.reference.heapAlign ∧
      (∀ b ∈ busy.heap.blocks, b.isFree = true → b.size < 16) ∧
      busy.heap.hbuf.size + 16 ≤ Params.reference.memLimit ∧
      ({ Params.reference with memLimit := 39 }).memLimit < busy.heap.hbuf.size + 16 := by decide

/-- AllocReusesFirstFit: a free block of exactly the size. -/
theorem witness_alloc_reuses :
    (calling 3 8).reg sysReg = Params.reference.syscodes.alloc ∧ 0 < (calling 3 8).int argReg ∧
      Params.reference.heapAlign ∣ 8 ∧ (calling 3 8).int argReg ≤ (8 : Nat) ∧
      ((8 : Nat) : Int) < (calling 3 8).int argReg + Params.reference.heapAlign ∧
      busy.heap.blocks = [] ++ ⟨0, 8, true⟩ :: [⟨8, 16, false⟩] ∧ 8 ≤ (⟨0, 8, true⟩ : Block).size ∧
      (⟨0, 8, true⟩ : Block).start ≤ 2147483647 := by decide

/-- AllocRefusesNonPositiveSize: sizes 0 and -1. -/
theorem witness_alloc_refuses :
    (calling 3 0).reg sysReg = (calling 3 0).params.syscodes.alloc ∧ (calling 3 0).int argReg ≤ 0 ∧
      (calling 3 (-1)).int argReg ≤ 0 := by decide

/-- FreeResult: no block there, a free one, and a used one whose freeing empties the heap. -/
theorem witness_free :
    (calling 4 4).reg sysReg = (calling 4 4).params.syscodes.free ∧
      (∀ c ∈ busy.heap.blocks, (c.start : Int) ≠ (calling 4 4).int argReg) ∧
      (busy.heap.blocks = [] ++ ⟨0, 8, true⟩ :: [⟨8, 16, false⟩] ∧
        (∀ c ∈ [] ++ [(⟨8, 16, false⟩ : Block)], (c.start : Int) ≠ (calling 4 0).int argReg) ∧
        ((⟨0, 8, true⟩ : Block).start : Int) = (calling 4 0).int argReg) ∧
      (busy.heap.blocks = [⟨0, 8, true⟩] ++ ⟨8, 16, false⟩ :: [] ∧
        (∀ c ∈ [(⟨0, 8, true⟩ : Block)] ++ [], (c.start : Int) ≠ (calling 4 8).int argReg) ∧
        ((⟨8, 16, false⟩ : Block).start : Int) = (calling 4 8).int argReg) ∧
      ([⟨0, 8, true⟩] ++ { (⟨8, 16, false⟩ : Block) with isFree := true } :: [] =
          [] ++ [(⟨0, 8, true⟩ : Block), ⟨8, 16, true⟩] ∧
        ∀ c ∈ [(⟨0, 8, true⟩ : Block), ⟨8, 16, true⟩], c.isFree = true) := by decide

theorem witness_twoBlocks_heap_inv :
    (twoBlocks (calling 4 0)).heap.Inv (twoBlocks (calling 4 0)).params :=
  ⟨⟨rfl, rfl, trivial⟩, by decide, by decide, by intro b h; cases h; rfl, by decide, by decide, by decide⟩

/-- FreeOfInteriorBlockKeepsLength: the first of two used blocks. -/
theorem witness_free_interior :
    (twoBlocks (calling 4 0)).Inv ∧
      (twoBlocks (calling 4 0)).heap.blocks = [] ++ ⟨0, 8, false⟩ :: [⟨8, 16, false⟩] ∧
      ((⟨0, 8, false⟩ : Block).start : Int) = (twoBlocks (calling 4 0)).int argReg ∧
      ∃ c ∈ [(⟨8, 16, false⟩ : Block)], c.isFree = false :=
  ⟨⟨by decide, by decide, by decide, by decide, by decide, witness_twoBlocks_heap_inv⟩, by decide, by decide,
    by decide⟩

/-- HeapLawsOnEmptyHeap: spec/95_test_vectors.md E3. -/
theorem witness_heap_laws :
    heapAlloc Params.reference 8 { blocks := [], hbuf := Memory.empty } =
        .ok (0, { blocks := [⟨0, 8, false⟩], hbuf := Memory.empty.grow 8 }) ∧
      heapAlloc Params.reference 16 { blocks := [⟨0, 8, false⟩], hbuf := Memory.empty.grow 8 } =
        .ok (8, { blocks := [⟨0, 8, false⟩, ⟨8, 16, false⟩], hbuf := (Memory.empty.grow 8).grow 24 }) := by decide

/-- PrintSyscalls: both syscalls, an offset at the end and below 0, a string with its NUL, bytes that are no
UTF-8 (V-SYS-7). -/
theorem witness_print :
    (calling 1 0).reg sysReg = (calling 1 0).params.syscodes.cprint ∧
      (calling 5 0).reg sysReg = (calling 5 0).params.syscodes.printString ∧
      ((Memory.ofBytes [0x68, 0x69, 0x00]).size : Int) ≤ (calling 1 3).int argReg ∧
      (calling 1 (-1)).int argReg < 0 ∧
      ((calling 1 1).int argReg = (1 : Nat) ∧ 1 < (Memory.ofBytes [0x68, 0x69, 0x00]).size ∧
        (∀ k < [(0x69 : Byte)].length, (Memory.ofBytes [0x68, 0x69, 0x00]).byte? (1 + k) = [(0x69 : Byte)][k]?) ∧
        (Memory.ofBytes [0x68, 0x69, 0x00]).byte? (1 + 1) = some 0#8 ∧ validUtf8 [0x69] = true) ∧
      validUtf8 [0xC3, 0x28] = false := by decide

/-- PrintSyscalls, the clause of a string without its NUL (V-SYS-5). -/
theorem witness_print_unterminated (a : Nat) : (Memory.ofBytes [0x68, 0x69]).byte? a ≠ some 0#8 := by
  have hs : (Memory.ofBytes [0x68, 0x69]).size = 2 := rfl
  unfold Memory.byte?
  split
  · have : a = 0 ∨ a = 1 := by omega
    rcases this with rfl | rfl <;> decide
  · simp

/-- LoaderChecksInOrder: an image one byte short, a wrong magic, a read-only block one byte too long, one that
just fits. -/
theorem witness_loader_checks :
    (List.replicate 63 (0 : Byte)).length < 64 ∧
      (64 ≤ (List.replicate 64 (0 : Byte)).length ∧
        (List.replicate 64 (0 : Byte)).take 4 ≠ Params.reference.magic.toList) ∧
      (64 ≤ (Params.reference.magic.toList ++ [1, 0, 0, 0] ++ List.replicate 56 0).length ∧
        (Params.reference.magic.toList ++ [1, 0, 0, 0] ++ List.replicate 56 0).length < 64 + le32 1 0 0 0) ∧
      64 + le32 1 0 0 0 ≤ (Params.reference.magic.toList ++ [1, 0, 0, 0] ++ List.replicate 57 0).length := by
  decide

/-- ResetStateIsSpecified, the clause of a successful load. -/
theorem witness_load_succeeds :
    ∃ t, loadBytecode (Params.reference.magic.toList ++ [2, 0, 0, 0] ++ List.replicate 56 0 ++ [0x68, 0x00] ++ [0x13])
      busy = (t, .ok ()) := ⟨_, rfl⟩

/-- LoaderInstallsImage, EmptyProgramEndsNormally: a read-only block of two bytes and a program of one; none. -/
theorem witness_loader_installs :
    ((List.replicate 56 (0 : Byte)).length = 56 ∧ ([0x68, 0x00] : List Byte).length = le32 2 0 0 0) ∧
      (loadBytecode (Params.reference.magic.toList ++ [2, 0, 0, 0] ++ List.replicate 56 0 ++ [0x68, 0x00] ++ [0x13])
          busy).1.prog.toBytes = [0x13] ∧
      (Params.reference.magic.toList ++ [0, 0, 0, 0] ++ List.replicate 56 0).length = 64 := by decide

end Sys2Proof.Tests
end

namespace Sys2Proof.Machine

/-! ## The equations of a step, one per case of its fetch (spec/30_encoding.md R130 to R133) -/

theorem step_of_terminal {s : State} (h : s.status ≠ .running) : step s = .next s := by
  unfold step fetch
  cases hs : s.status with
  | running => exact absurd hs h
  | halted | faulted => rfl

section
variable {s : State} (hs : s.status = .running)
include hs

theorem step_at_end (h : s.pc = s.prog.size) : step s = .next (s.halt .endOfStream) := by
  simp only [step, fetch, hs, h, if_true]

theorem step_past_end (h : s.prog.size < s.pc) : step s = .next (s.raise (.pcOutOfRange s.pc)) := by
  simp only [step, fetch, hs, h.ne', h, if_true, if_false]

theorem step_of_decode_error {e : DecodeError} (h : s.pc < s.prog.size)
    (hd : decode s.params (instrBytes s) = .error e) :
    step s = .next (s.raise (faultOfDecode s.pc s.prog.size e)) := by
  simp only [step, fetch, hs, h.ne, h.not_gt, hd, if_false]

theorem step_of_decode_ok {i : Instr} {rest : List Byte} (h : s.pc < s.prog.size)
    (hd : decode s.params (instrBytes s) = .ok (i, rest)) : step s = exec i s := by
  simp only [step, fetch, hs, h.ne, h.not_gt, hd, if_false]

end

end Sys2Proof.Machine

/-! ## The remainder field and the output are unobservable -/

namespace Sys2Proof.Machine

/-- The state with the two parts no instruction reads replaced (spec/10_state.md R31, R33). -/
def State.withHidden (r : Word) (o : List Byte) (s : State) : State := { s with rem := r, out := o }

/-- An effect does not observe the hidden parts: replaced before it, they are at most replaced after it, and the
answer is otherwise the same, fault or state. -/
def Oblivious (e : State → Except Fault State) : Prop :=
  ∀ t r o, ∃ r' o', e (t.withHidden r o) = (e t).map (State.withHidden r' o')

/-! ### Operations that commute with replacing the hidden parts -/

/-- A chain commutes with `m` when its first operation answers `k` of what it answered, and its second commutes
from there. -/
theorem bind_commutes {ε α α' β : Type} {x : Except ε α} {x' : Except ε α'} {k : α → α'} {m : β → β}
    {f : α → Except ε β} {f' : α' → Except ε β} (hx : x' = x.map k) (hf : ∀ a, f' (k a) = (f a).map m) :
    x' >>= f' = (x >>= f).map m := by
  subst hx
  cases x with
  | error e => rfl
  | ok a => exact hf a

/-- A chain whose first operation does not see what `m` replaces commutes with `m` when its second does. -/
theorem bind_commutes_of_same {ε α β β' : Type} {x : Except ε α} {m : β → β'} {f : α → Except ε β}
    {f' : α → Except ε β'} (hf : ∀ a, f' a = (f a).map m) : x >>= f' = (x >>= f).map m := by
  cases x with
  | error e => rfl
  | ok a => exact hf a

/-- A choice commutes with `m` when both its branches do. -/
theorem ite_commutes {ε α β : Type} {m : α → β} {c : Prop} [Decidable c] {x y : Except ε α}
    {x' y' : Except ε β} (hx : x' = x.map m) (hy : y' = y.map m) :
    (if c then x' else y') = (if c then x else y).map m := by
  rw [hx, hy, apply_ite (Except.map m)]

section
variable (t : State) (r : Word) (o : List Byte)

theorem writeChecked_withHidden (rd : Reg) (v : Int) :
    writeChecked rd v (t.withHidden r o) = (writeChecked rd v t).map (State.withHidden r o) :=
  bind_commutes_of_same fun _ => rfl

theorem jumpTo_withHidden (n : Int) :
    jumpTo n (t.withHidden r o) = (jumpTo n t).map (State.withHidden r o) :=
  ite_commutes rfl rfl

theorem moveSp_withHidden (d : Int) :
    moveSp d (t.withHidden r o) = (moveSp d t).map (State.withHidden r o) :=
  bind_commutes_of_same fun _ => rfl

theorem pushAndMove_withHidden (v : Word) :
    pushAndMove v (t.withHidden r o) = (pushAndMove v t).map (State.withHidden r o) :=
  bind_commutes_of_same fun st => moveSp_withHidden { t with stack := st } r o 4

theorem popAndMove_withHidden :
    popAndMove (t.withHidden r o) = (popAndMove t).map (Prod.map id (State.withHidden r o)) :=
  bind_commutes (moveSp_withHidden { t with stack := (popWord t.stack).2 } r o (-4)) fun _ => rfl

theorem memWrite_withHidden (sec : Section) (a : Int) (bs : List Byte) :
    memWrite (t.withHidden r o) sec a bs = (memWrite t sec a bs).map (State.withHidden r o) := by
  cases sec with
  | heap => exact ite_commutes rfl (ite_commutes rfl rfl)
  | stack => exact ite_commutes rfl (bind_commutes_of_same fun _ => rfl)

theorem callEffect_withHidden (a : Half) :
    callEffect a (t.withHidden r o) = (callEffect a t).map (State.withHidden r o) := by
  refine ite_commutes rfl ?_
  refine bind_commutes (pushAndMove_withHidden t r o _) fun u1 => ?_
  refine bind_commutes (pushAndMove_withHidden u1 r o _) fun u2 => ?_
  exact bind_commutes (jumpTo_withHidden u2 r o _) fun _ => rfl

theorem retEffect_withHidden :
    retEffect (t.withHidden r o) = (retEffect t).map (State.withHidden r o) := by
  refine bind_commutes (popAndMove_withHidden t r o) fun (bp, u1) => ?_
  refine bind_commutes (popAndMove_withHidden (u1.setReg bpReg bp) r o) fun (_, u2) => ?_
  exact jumpTo_withHidden u2 r o _

end

/-! ### Every effect is oblivious -/

/-- DIV overwrites the remainder field, so only the output is still replaced after it. -/
theorem divide_withHidden (rd : Reg) (a b : Int) (t : State) (r : Word) (o : List Byte) :
    divide rd a b (t.withHidden r o) =
      (divide rd a b t).map (State.withHidden (wrap32 (a.tmod b)) o) :=
  ite_commutes rfl (ite_commutes rfl rfl)

/-- Text printed is appended to whatever the output was. -/
theorem emit_oblivious (text : State → Except Fault (List Byte))
    (h : ∀ t r o, text (t.withHidden r o) = text t) :
    Oblivious fun t => text t >>= fun bs => .ok (t.emit bs) := by
  intro t r o
  cases ht : text t with
  | error f => exact ⟨r, o, by simp only [h, ht]; rfl⟩
  | ok bs => exact ⟨r, o ++ bs, by simp only [h, ht]; rfl⟩

theorem sysCPrint_oblivious : Oblivious sysCPrint :=
  emit_oblivious (fun t => printFrom t.params t.ro .readOnly (t.int argReg)) fun _ _ _ => rfl

theorem sysPrintString_oblivious : Oblivious sysPrintString :=
  emit_oblivious (fun t => printFrom t.params t.heap.hbuf .heap (t.int argReg)) fun _ _ _ => rfl

/-- A choice whose condition does not see the hidden parts is oblivious when both its branches are. -/
theorem ite_oblivious {c : State → Prop} [DecidablePred c] {e e' : State → Except Fault State}
    (hc : ∀ t r o, c (t.withHidden r o) ↔ c t) (he : Oblivious e) (he' : Oblivious e') :
    Oblivious fun t => if c t then e t else e' t := by
  intro t r o
  by_cases h : c t
  · simpa only [hc, h, if_true] using he t r o
  · simpa only [hc, h, if_false] using he' t r o

theorem syscall_oblivious : Oblivious syscall := by
  refine ite_oblivious (fun _ _ _ => .rfl) (fun _ r o => ⟨r, o, rfl⟩) ?_
  refine ite_oblivious (fun _ _ _ => .rfl) sysCPrint_oblivious ?_
  refine ite_oblivious (fun _ _ _ => .rfl) (fun _ r o => ⟨r, o, rfl⟩) ?_
  refine ite_oblivious (fun _ _ _ => .rfl) (fun _ r o => ⟨r, o, bind_commutes_of_same fun _ => rfl⟩) ?_
  refine ite_oblivious (fun _ _ _ => .rfl) (fun _ r o => ⟨r, o, bind_commutes_of_same fun _ => rfl⟩) ?_
  exact ite_oblivious (fun _ _ _ => .rfl) sysPrintString_oblivious fun _ r o => ⟨r, o, rfl⟩

theorem effectOf_oblivious (i : Instr) : Oblivious (effectOf i) := by
  intro t r o
  cases i with
  | load | not | shiftl | shiftr | and | or | eq | neq | gt | lt | gtq | ltq => exact ⟨r, o, rfl⟩
  | add | sub | mul => exact ⟨r, o, writeChecked_withHidden t r o _ _⟩
  | div ra rb rd => exact ⟨_, o, divide_withHidden rd (t.int ra) (t.int rb) t r o⟩
  | jmp | jmpf | jmpb | rjmp => exact ⟨r, o, jumpTo_withHidden t r o _⟩
  | jeq | jez => exact ⟨r, o, ite_commutes (jumpTo_withHidden t r o _) rfl⟩
  | call a => exact ⟨r, o, callEffect_withHidden t r o a⟩
  | ret => exact ⟨r, o, retEffect_withHidden t r o⟩
  | sw | sb => exact ⟨r, o, memWrite_withHidden t r o _ _ _⟩
  | lw | lb => exact ⟨r, o, bind_commutes_of_same fun _ => rfl⟩
  | sysc => exact syscall_oblivious t r o
  | push => exact ⟨r, o, pushAndMove_withHidden t r o _⟩
  | pop => exact ⟨r, o, bind_commutes (popAndMove_withHidden t r o) fun _ => rfl⟩

/-! ### Instructions and steps -/

/-- An instruction run with the hidden parts replaced ends in the same state but for them. -/
theorem exec_withHidden {i : Instr} {s t : State} (h : exec i s = .next t) (r : Word) (o : List Byte) :
    ∃ r' o', exec i (s.withHidden r o) = .next (t.withHidden r' o') := by
  obtain ⟨r', o', he⟩ := effectOf_oblivious i (s.advance i.width) r o
  rcases exec_cases h with hok | ⟨f, herr, rfl⟩
  · exact ⟨r', o', exec_ok (he.trans (by rw [hok]; rfl))⟩
  · exact ⟨r, o, exec_error (he.trans (by rw [herr]; rfl))⟩

/-- A step with the hidden parts replaced settles in the same state but for them, or runs the same instruction. -/
theorem step_withHidden {s t : State} (h : step s = .next t) (r : Word) (o : List Byte) :
    ∃ r' o', step (s.withHidden r o) = .next (t.withHidden r' o') := by
  obtain ⟨hs, rfl⟩ | ⟨hs, ⟨he, rfl⟩ | ⟨hp, rfl⟩ | ⟨hp, e, hd, rfl⟩ | ⟨hp, i, rest, hd, hx⟩⟩ := step_cases h
  · exact ⟨r, o, step_of_terminal (s := t.withHidden r o) hs⟩
  · exact ⟨r, o, step_at_end (s := s.withHidden r o) hs he⟩
  · exact ⟨r, o, step_past_end (s := s.withHidden r o) hs hp⟩
  · exact ⟨r, o, step_of_decode_error (s := s.withHidden r o) hs hp hd⟩
  · obtain ⟨r', o', hx'⟩ := exec_withHidden hx r o
    exact ⟨r', o', (step_of_decode_ok (s := s.withHidden r o) hs hp hd).trans hx'⟩

/-- Settles O22: the fetch reads no hidden part, and the effect of every instruction is oblivious of them. -/
theorem remainderAndOutputAreUnobservable : Obligations.RemainderAndOutputAreUnobservable := by
  intro s t r o h
  obtain ⟨r', o', ht⟩ := step_withHidden h r o
  exact ⟨t.withHidden r' o', ht, rfl⟩

end Sys2Proof.Machine

/-! ## The frame of an effect: what every instruction leaves unchanged -/

namespace Sys2Proof.Machine

/-- What the effect of `i` may change between `t` and `u`, field by field (spec/10_state.md R22 to R34). The
stack and the heap unit are free. It is reflexive and transitive, so an effect made of several operations has
it when each operation does. -/
structure EffectFrame (i : Instr) (t u : State) : Prop where
  params : u.params = t.params
  prog : u.prog = t.prog
  ro : u.ro = t.ro
  registers : ∀ r ∉ destinations i, u.reg r = t.reg r
  pc : i.mnemonic ∉ transfers → u.pc = t.pc
  eqf : i.mnemonic ∉ comparisons → u.eqf = t.eqf
  rem : i.mnemonic ≠ .div → u.rem = t.rem
  status : i ≠ .sysc → u.status = t.status
  outGrows : t.out <+: u.out
  out : i ≠ .sysc → u.out = t.out

namespace EffectFrame

variable {i : Instr} {t u v : State}

theorem refl (i : Instr) (t : State) : EffectFrame i t t := by constructor <;> simp

theorem trans (h : EffectFrame i t u) (k : EffectFrame i u v) : EffectFrame i t v where
  params := k.params.trans h.params
  prog := k.prog.trans h.prog
  ro := k.ro.trans h.ro
  registers r hr := (k.registers r hr).trans (h.registers r hr)
  pc hi := (k.pc hi).trans (h.pc hi)
  eqf hi := (k.eqf hi).trans (h.eqf hi)
  rem hi := (k.rem hi).trans (h.rem hi)
  status hi := (k.status hi).trans (h.status hi)
  outGrows := h.outGrows.trans k.outGrows
  out hi := (k.out hi).trans (h.out hi)

/-! One lemma per update of the state, each with what it asks of the instruction. -/

theorem setReg {r : Reg} (hr : r ∈ destinations i) (w : Word) : EffectFrame i t (t.setReg r w) where
  __ := refl i t
  registers _ hq := State.setReg_reg_other t w fun e => hq (e ▸ hr)

theorem setPc (hi : i.mnemonic ∈ transfers) (n : Nat) : EffectFrame i t { t with pc := n } where
  __ := refl i t
  pc hn := absurd hi hn

theorem setEqf (hi : i.mnemonic ∈ comparisons) (b : Bool) : EffectFrame i t (t.setEqf b) where
  __ := refl i t
  eqf hn := absurd hi hn

theorem setRem (hi : i.mnemonic = .div) (w : Word) : EffectFrame i t { t with rem := w } where
  __ := refl i t
  rem hn := absurd hi hn

theorem setStack (m : Memory) : EffectFrame i t { t with stack := m } where
  __ := refl i t

theorem setHeap (h : Heap) : EffectFrame i t { t with heap := h } where
  __ := refl i t

theorem halt (hi : i = .sysc) (c : HaltCause) : EffectFrame i t (t.halt c) where
  __ := refl i t
  status hn := absurd hi hn

theorem emit (hi : i = .sysc) (bs : List Byte) : EffectFrame i t (t.emit bs) where
  __ := refl i t
  outGrows := ⟨bs, rfl⟩
  out hn := absurd hi hn

end EffectFrame

/-! ### The shared operations -/

section
variable {i : Instr} {t u : State}

theorem writeChecked_frame {rd : Reg} {v : Int} (hr : rd ∈ destinations i) (h : writeChecked rd v t = .ok u) :
    EffectFrame i t u := by
  obtain ⟨-, rfl⟩ := writeChecked_ok h
  exact .setReg hr _

theorem jumpTo_frame {n : Int} (hi : i.mnemonic ∈ transfers) (h : jumpTo n t = .ok u) : EffectFrame i t u := by
  obtain ⟨-, rfl⟩ := jumpTo_ok h
  exact .setPc hi _

theorem pushAndMove_frame {v : Word} (hr : spReg ∈ destinations i) (h : pushAndMove v t = .ok u) :
    EffectFrame i t u := by
  obtain ⟨-, -, rfl⟩ := pushAndMove_ok h
  exact (EffectFrame.setStack _).trans (.setReg hr _)

theorem popAndMove_frame {v : Word} (hr : spReg ∈ destinations i) (h : popAndMove t = .ok (v, u)) :
    EffectFrame i t u := by
  obtain ⟨-, -, rfl⟩ := popAndMove_ok h
  exact (EffectFrame.setStack _).trans (.setReg hr _)

theorem memWrite_frame {sec : Section} {a : Int} {bs : List Byte} (h : memWrite t sec a bs = .ok u) :
    EffectFrame i t u := by
  obtain ⟨-, ⟨-, -, rfl⟩ | ⟨-, -, rfl⟩⟩ := memWrite_ok h
  · exact .setHeap _
  · exact .setStack _

end

theorem divide_frame {ra rb rd : Reg} {a b : Int} {t u : State} (h : divide rd a b t = .ok u) :
    EffectFrame (.div ra rb rd) t u := by
  obtain ⟨-, -, rfl⟩ := divide_ok h
  exact (EffectFrame.setReg (by simp [destinations]) _).trans (.setRem rfl _)

theorem callEffect_frame {a : Half} {t u : State} (h : callEffect a t = .ok u) : EffectFrame (.call a) t u := by
  obtain ⟨-, u1, u2, h1, h2, rfl⟩ := callEffect_ok h
  have hu1 : EffectFrame (.call a) t u1 := pushAndMove_frame (by simp [destinations]) h1
  have hu2 : EffectFrame (.call a) u1 u2 := pushAndMove_frame (by simp [destinations]) h2
  have hpc : EffectFrame (.call a) u2 { u2 with pc := a.toNat } :=
    .setPc (by simp [Instr.mnemonic, transfers]) _
  exact ((hu1.trans hu2).trans hpc).trans (.setReg (by simp [destinations]) _)

theorem retEffect_frame {t u : State} (h : retEffect t = .ok u) : EffectFrame .ret t u := by
  obtain ⟨bp, u1, r, u2, h1, h2, -, rfl⟩ := retEffect_ok h
  have hu1 : EffectFrame .ret t u1 := popAndMove_frame (by simp [destinations]) h1
  have hbp : EffectFrame .ret u1 (u1.setReg bpReg bp) := .setReg (by simp [destinations]) _
  have hu2 : EffectFrame .ret (u1.setReg bpReg bp) u2 := popAndMove_frame (by simp [destinations]) h2
  exact ((hu1.trans hbp).trans hu2).trans (.setPc (by simp [Instr.mnemonic, transfers]) _)

theorem syscall_frame {t u : State} (h : syscall t = .ok u) : EffectFrame .sysc t u := by
  obtain ⟨-, rfl⟩ | ⟨bs, rfl⟩ | ⟨-, rfl⟩ | ⟨start, hp, -, rfl⟩ | ⟨hp, -, rfl⟩ := syscall_ok h
  · exact .refl _ _
  · exact .emit rfl bs
  · exact .halt rfl .exit
  · exact (EffectFrame.setHeap hp).trans (.setReg (by simp [destinations]) _)
  · exact .setHeap hp

/-- A syscall leaves the status as it was, or it is Exit (spec/46_syscall.md R275). -/
theorem syscall_status {t u : State} (h : syscall t = .ok u) :
    u.status = t.status ∨ (t.reg sysReg = t.params.syscodes.exit ∧ u.status = .halted .exit) := by
  obtain ⟨-, rfl⟩ | ⟨bs, rfl⟩ | ⟨hc, rfl⟩ | ⟨start, hp, -, rfl⟩ | ⟨hp, -, rfl⟩ := syscall_ok h
  case inr.inr.inl => exact .inr ⟨hc, rfl⟩
  all_goals exact .inl rfl

/-! ### Every instruction -/

theorem effectOf_frame {i : Instr} {t u : State} (h : effectOf i t = .ok u) : EffectFrame i t u := by
  cases i with
  | load | not | shiftl | shiftr | and | or => cases h; exact .setReg (by simp [destinations]) _
  | add | sub | mul => exact writeChecked_frame (by simp [destinations]) h
  | div => exact divide_frame h
  | eq | neq | gt | lt | gtq | ltq => cases h; exact .setEqf (by simp [Instr.mnemonic, comparisons]) _
  | jmp | jmpf | jmpb | rjmp => exact jumpTo_frame (by simp [Instr.mnemonic, transfers]) h
  | jeq | jez =>
    simp only [effectOf] at h
    split at h
    · exact jumpTo_frame (by simp [Instr.mnemonic, transfers]) h
    · cases h; exact .refl _ _
  | call => exact callEffect_frame h
  | ret => exact retEffect_frame h
  | sw | sb => exact memWrite_frame h
  | lw =>
    obtain ⟨bs, -, rfl⟩ := lwEffect_ok h
    exact .setReg (by simp [destinations]) _
  | lb =>
    obtain ⟨bs, -, rfl⟩ := lbEffect_ok h
    exact .setReg (by simp [destinations]) _
  | sysc => exact syscall_frame h
  | push => exact pushAndMove_frame (by simp [destinations]) h
  | pop =>
    obtain ⟨v, t', hp, rfl⟩ := popEffect_ok h
    exact (popAndMove_frame (by simp [destinations]) hp).trans (.setReg (by simp [destinations]) _)

/-- An instruction keeps its frame past the advance of the pc, or raises a fault. -/
theorem exec_frame {i : Instr} {s t : State} (h : exec i s = .next t) :
    EffectFrame i (s.advance i.width) t ∨ ∃ f, t = s.raise f := by
  rcases exec_cases h with h | ⟨f, -, rfl⟩
  · exact .inl (effectOf_frame h)
  · exact .inr ⟨f, rfl⟩

/-- No instruction writes the parameters, the instruction stream or the read-only block. -/
theorem exec_program {i : Instr} {s t : State} (h : exec i s = .next t) :
    t.prog = s.prog ∧ t.ro = s.ro ∧ t.params = s.params := by
  rcases exec_frame h with hf | ⟨f, rfl⟩
  · exact ⟨hf.prog, hf.ro, hf.params⟩
  · exact ⟨rfl, rfl, rfl⟩

/-- What an instruction's effect leaves in the status: what was there, or Exit's halt. -/
theorem effectOf_status {i : Instr} {t u : State} (h : effectOf i t = .ok u) :
    u.status = t.status ∨
      (i = .sysc ∧ t.reg sysReg = t.params.syscodes.exit ∧ u.status = .halted .exit) := by
  by_cases hi : i = .sysc
  · subst hi
    exact (syscall_status h).imp_right fun hx => ⟨rfl, hx⟩
  · exact .inl ((effectOf_frame h).status hi)

/-! ### The frame statements -/

/-- Settles O16: each operation of an effect writes destinations of its instruction alone, and a fault writes no
register. -/
theorem registersChangeOnlyAtDestinations : Obligations.RegistersChangeOnlyAtDestinations := by
  intro i s t h r hr
  rcases exec_frame h with hf | ⟨f, rfl⟩
  · exact hf.registers r hr
  · rfl

/-- Settles O17, by the frame of every effect. -/
theorem flagAndRemainderWriters : Obligations.FlagAndRemainderWriters := by
  intro i s t h
  rcases exec_frame h with hf | ⟨f, rfl⟩
  · exact ⟨hf.eqf, hf.rem⟩
  · exact ⟨fun _ => rfl, fun _ => rfl⟩

/-- Settles O18: a step ends with no instruction run and only the status changed, or runs an instruction. -/
theorem programIsNeverWritten : Obligations.ProgramIsNeverWritten := by
  intro s t h
  obtain ⟨-, rfl⟩ | ⟨-, ⟨-, rfl⟩ | ⟨-, rfl⟩ | ⟨-, e, -, rfl⟩ | ⟨-, i, rest, -, hx⟩⟩ := step_cases h
  case inr.inr.inr.inr => exact exec_program hx
  all_goals exact ⟨rfl, rfl, rfl⟩

/-- Settles O20, by the frame of every effect. -/
theorem outputOnlyGrowsBySyscalls : Obligations.OutputOnlyGrowsBySyscalls := by
  intro i s t h
  rcases exec_frame h with hf | ⟨f, rfl⟩
  · exact ⟨hf.outGrows, hf.out⟩
  · exact ⟨⟨[], List.append_nil _⟩, fun _ => rfl⟩

/-- Settles O21: an effect that answers keeps the status but for Exit, and the pc past the instruction but for
transfers; a fault is the state raised. -/
theorem statusAndPcFrame : Obligations.StatusAndPcFrame := by
  intro i s t hs h
  rcases exec_cases h with h | ⟨f, -, rfl⟩
  · exact ⟨(effectOf_status h).imp (·.trans hs) .inr, fun hi _ => (effectOf_frame h).pc hi⟩
  · exact ⟨.inr (.inl ⟨f, rfl⟩), fun _ hf => by simp [State.failed] at hf⟩

end Sys2Proof.Machine

namespace Sys2Proof.Machine

/-! ## Reset and load -/

theorem reference_wellFormed : Params.reference.WellFormed := by decide

/-- The empty heap meets the heap invariants under any parameters. -/
theorem emptyHeap_inv (p : Params) : Heap.Inv p { blocks := [], hbuf := Memory.empty } where
  contiguous := trivial
  lengthIsSum := rfl
  sizesAligned := by simp
  lastUsed := by simp
  startsIncrease := .nil
  withinLimit := Nat.zero_le _
  canonical := Memory.empty_wf

theorem initial_inv {p : Params} (hp : p.WellFormed) : (State.initial p).Inv where
  paramsAllowed := hp
  progCanonical := Memory.empty_wf
  roCanonical := Memory.empty_wf
  stackCanonical := Memory.empty_wf
  stackWithinLimit := Nat.zero_le _
  heapInv := emptyHeap_inv p

theorem initial_int (p : Params) (r : Reg) : (State.initial p).int r = 0 := by
  simp [State.int, State.reg, State.initial]

/-- A load that succeeds installs the image, whatever the state before (spec/70_reset_and_hazards.md R342, R345). -/
theorem loadBytecode_ok {img : List Byte} {s t : State} (h : loadBytecode img s = (t, .ok ())) :
    t = installImage s.params img := by
  unfold loadBytecode at h
  split_ifs at h
  all_goals cases h
  rfl

/-- Settles O1: the initial state by its definition, and a load by the state it installs. -/
theorem resetStateIsSpecified : Obligations.ResetStateIsSpecified := by
  refine fun p => ⟨initial_int p, rfl, rfl, rfl, rfl, rfl, rfl, rfl, rfl, rfl, rfl, rfl, fun img s t h => ?_⟩
  obtain rfl := loadBytecode_ok h
  exact ⟨Memory.toBytes_ofBytes _, Memory.toBytes_ofBytes _, rfl⟩

/-- Settles O2: the reference parameters are allowed ones, so the reset state is one of the initial states. -/
theorem resetMeetsInvariant : Obligations.ResetMeetsInvariant :=
  ⟨fun _ => initial_inv, initial_inv reference_wellFormed⟩

end Sys2Proof.Machine

/-! ## The memory units: what each instruction does to the stack and the heap, and what every step keeps -/

namespace Sys2Proof.Machine

/-! ### The heap's operations keep its invariants (spec/20_memory.md R71) -/

theorem heapAlign_pos {p : Params} (h : p.heapAlignAllowed) : 0 < p.heapAlign := by
  rcases h with h | h <;> omega

/-- The aligned size is the one multiple of the alignment in its range (spec/20_memory.md R72). -/
theorem alignUp_eq {p : Params} (hp : p.heapAlignAllowed) {n a : Nat} (hd : p.heapAlign ∣ a) (h1 : n ≤ a)
    (h2 : a < n + p.heapAlign) : alignUp p n = a := by
  rcases hp with h | h <;> simp only [alignUp, h] at * <;> omega

theorem alignUp_pos {p : Params} (hp : p.heapAlignAllowed) {n : Int} (hn : 0 < n) : 0 < alignUp p n.toNat := by
  obtain ⟨-, hle, -⟩ := alignUp_spec (heapAlign_pos hp) n.toNat
  omega

/-- Marking a block used or free changes no other block, so not the last one where another follows it. -/
theorem getLast?_setFree {pre post : List Block} {b : Block} (f : Bool) (h : post ≠ []) :
    (pre ++ { b with isFree := f } :: post).getLast? = (pre ++ b :: post).getLast? := by
  cases post with
  | nil => exact absurd rfl h
  | cons c post => simp only [List.getLast?_append_cons, List.getLast?_cons_cons]

theorem sizesAligned_setFree {d : Nat} {pre post : List Block} {b : Block} (f : Bool)
    (h : ∀ c ∈ pre ++ b :: post, 0 < c.size ∧ d ∣ c.size) :
    ∀ c ∈ pre ++ { b with isFree := f } :: post, 0 < c.size ∧ d ∣ c.size := by
  simp only [List.forall_mem_append, List.forall_mem_cons] at h ⊢
  exact h

/-- Marking the first fit used keeps the invariants. -/
theorem Heap.Inv.reuse {p : Params} {h : Heap} (hi : h.Inv p) {pre post : List Block} {b : Block}
    (hb : h.blocks = pre ++ b :: post) :
    Heap.Inv p { h with blocks := pre ++ { b with isFree := false } :: post } where
  contiguous := contiguousFrom_setFree _ (hb ▸ hi.contiguous)
  lengthIsSum := by simpa [hb] using hi.lengthIsSum
  sizesAligned := sizesAligned_setFree _ (hb ▸ hi.sizesAligned)
  lastUsed c hc := by
    by_cases hp : post = []
    · subst hp
      have : { b with isFree := false } = c := by simpa using hc
      exact this ▸ rfl
    · exact hi.lastUsed c (by rw [hb, ← getLast?_setFree false hp, hc])
  startsIncrease := starts_setFree _ (hb ▸ hi.startsIncrease)
  withinLimit := hi.withinLimit
  canonical := hi.canonical

/-- A used block of an aligned size appended within the limit keeps the invariants (spec/20_memory.md R77). -/
theorem Heap.Inv.appendBlock {p : Params} {h : Heap} (hi : h.Inv p) {a : Nat} (h0 : 0 < a)
    (hd : p.heapAlign ∣ a) (hl : h.hbuf.size + a ≤ p.memLimit) :
    Heap.Inv p
      { blocks := h.blocks ++ [{ start := h.hbuf.size, size := a, isFree := false }]
        hbuf := h.hbuf.grow (h.hbuf.size + a) } where
  contiguous := contiguousFrom_append_one hi.contiguous (by simpa using hi.lengthIsSum)
  lengthIsSum := by simp [hi.lengthIsSum]
  sizesAligned b hb := by
    rcases List.mem_append.1 hb with hb | hb
    · exact hi.sizesAligned b hb
    · obtain rfl := List.mem_singleton.1 hb
      exact ⟨h0, hd⟩
  lastUsed b hb := by
    simp only [List.getLast?_append, List.getLast?_singleton, Option.some_or, Option.some.injEq] at hb
    exact hb ▸ rfl
  startsIncrease := by
    refine List.pairwise_append.2 ⟨hi.startsIncrease, List.pairwise_singleton _ _, fun b hb c hc => ?_⟩
    obtain rfl := List.mem_singleton.1 hc
    have hend := contiguousFrom_end_le hi.contiguous b hb
    have hpos := (hi.sizesAligned b hb).1
    have hsum := hi.lengthIsSum
    simp only
    omega
  withinLimit := by simpa using hl
  canonical := Memory.grow_wf hi.canonical _

/-- Marking a block free, then cutting the trailing run of free blocks and their bytes, keeps the invariants. -/
theorem Heap.Inv.release {p : Params} {h : Heap} (hi : h.Inv p) {pre post kept freed : List Block} {b : Block}
    (hb : h.blocks = pre ++ b :: post) (hs : pre ++ { b with isFree := true } :: post = kept ++ freed)
    (hk : ∀ c, kept.getLast? = some c → c.isFree = false) :
    Heap.Inv p { blocks := kept, hbuf := h.hbuf.truncate (h.hbuf.size - sizeSum freed) } where
  contiguous := contiguousFrom_left (hs ▸ contiguousFrom_setFree true (hb ▸ hi.contiguous))
  lengthIsSum := by
    have hsum := congrArg sizeSum hs
    have hlen := hi.lengthIsSum
    simp only [hb, sizeSum_append, sizeSum_cons] at hsum hlen
    simp only [Memory.truncate_size]
    omega
  sizesAligned c hc :=
    sizesAligned_setFree true (hb ▸ hi.sizesAligned) c (hs ▸ List.mem_append_left _ hc)
  lastUsed := hk
  startsIncrease := (List.pairwise_append.1 (hs ▸ starts_setFree true (hb ▸ hi.startsIncrease))).1
  withinLimit := (Nat.min_le_left _ _).trans hi.withinLimit
  canonical := Memory.truncate_wf hi.canonical _

theorem Heap.Inv.write {p : Params} {h : Heap} (hi : h.Inv p) {a : Nat} {bs : List Byte}
    (hb : a + bs.length ≤ h.hbuf.size) : Heap.Inv p { h with hbuf := h.hbuf.writeBytes a bs } where
  contiguous := hi.contiguous
  lengthIsSum := by simpa using hi.lengthIsSum
  sizesAligned := hi.sizesAligned
  lastUsed := hi.lastUsed
  startsIncrease := hi.startsIncrease
  withinLimit := by simpa using hi.withinLimit
  canonical := Memory.writeBytes_wf hi.canonical hb

theorem heapAlloc_inv {p : Params} {n : Int} {h h' : Heap} {start : Nat} (hp : p.heapAlignAllowed) (hi : h.Inv p)
    (e : heapAlloc p n h = .ok (start, h')) : h'.Inv p := by
  obtain ⟨hn, ⟨bs, hf, rfl⟩ | ⟨-, -, hl, rfl⟩⟩ := heapAlloc_ok e
  · obtain ⟨pre, b, post, hb, -, -, -, -, rfl⟩ := firstFit_some hf
    exact hi.reuse hb
  · obtain ⟨hd, -⟩ := alignUp_spec (heapAlign_pos hp) n.toNat
    exact hi.appendBlock (alignUp_pos hp hn) hd hl

theorem heapFree_inv {p : Params} {ptr : Int} {h h' : Heap} (hi : h.Inv p) (e : heapFree ptr h = .ok h') :
    h'.Inv p := by
  obtain ⟨⟨b, hf, -⟩, rfl⟩ := heapFree_ok e
  obtain ⟨hb, pre, post, hbs, hpre⟩ := List.find?_eq_some_iff_append.1 hf
  have hm : markFree ptr h.blocks = pre ++ { b with isFree := true } :: post := by
    rw [hbs]
    exact markFree_first (fun c hc => by simpa using hpre c hc) (by simpa using hb)
  have hs := hm.symm.trans (dropTrailingFree_append (markFree ptr h.blocks)).symm
  simpa using hi.release hbs hs fun c hc => dropTrailingFree_last hc

/-! ### The memory frame of an effect -/

/-- The parts of the state the invariant speaks of. -/
def State.memories (s : State) : Params × Memory × Memory × Memory × Heap :=
  (s.params, s.prog, s.ro, s.stack, s.heap)

theorem State.Inv.congr {t u : State} (h : u.memories = t.memories) (ht : t.Inv) : u.Inv := by
  simp only [State.memories, Prod.mk.injEq] at h
  obtain ⟨hp, hg, hr, hs, hh⟩ := h
  exact
    { paramsAllowed := hp ▸ ht.paramsAllowed
      progCanonical := hg ▸ ht.progCanonical
      roCanonical := hr ▸ ht.roCanonical
      stackCanonical := hs ▸ ht.stackCanonical
      stackWithinLimit := hs ▸ hp ▸ ht.stackWithinLimit
      heapInv := hh ▸ hp ▸ ht.heapInv }

theorem State.Inv.heapAlignAllowed {s : State} (h : s.Inv) : s.params.heapAlignAllowed :=
  have ⟨_, _, ha, _⟩ := h.paramsAllowed
  ha

theorem State.Inv.syscodesDistinct {s : State} (h : s.Inv) : s.params.syscodesDistinct :=
  have ⟨_, hd, _, _⟩ := h.paramsAllowed
  hd

/-- What the effect of `i` may do to the memories between `t` and `u`: it writes a section only where the
instruction may, and keeps the invariant. It is reflexive and transitive, as `EffectFrame` is. -/
structure MemoryFrame (i : Instr) (t u : State) : Prop where
  stack : ¬mayWriteStack i → u.stack = t.stack
  heap : ¬mayWriteHeap i → u.heap = t.heap
  inv : t.Inv → u.Inv

namespace MemoryFrame

variable {i : Instr} {t u v : State}

theorem untouched (h : u.memories = t.memories) : MemoryFrame i t u where
  stack _ := congrArg (·.2.2.2.1) h
  heap _ := congrArg (·.2.2.2.2) h
  inv := .congr h

theorem trans (h : MemoryFrame i t u) (k : MemoryFrame i u v) : MemoryFrame i t v where
  stack hi := (k.stack hi).trans (h.stack hi)
  heap hi := (k.heap hi).trans (h.heap hi)
  inv ht := k.inv (h.inv ht)

theorem setStack {m : Memory} (hi : mayWriteStack i)
    (hm : t.Inv → m.wf ∧ m.size ≤ t.params.memLimit) : MemoryFrame i t { t with stack := m } where
  stack hn := absurd hi hn
  heap _ := rfl
  inv ht := { ht with stackCanonical := (hm ht).1, stackWithinLimit := (hm ht).2 }

theorem setHeap {h : Heap} (hi : mayWriteHeap i) (hh : t.Inv → h.Inv t.params) :
    MemoryFrame i t { t with heap := h } where
  stack _ := rfl
  heap hn := absurd hi hn
  inv ht := { ht with heapInv := hh ht }

end MemoryFrame

section
variable {i : Instr} {t u : State}

theorem jumpTo_memory {n : Int} (h : jumpTo n t = .ok u) : MemoryFrame i t u := by
  obtain ⟨-, rfl⟩ := jumpTo_ok h
  exact .untouched rfl

theorem pushAndMove_memory {v : Word} (hi : mayWriteStack i) (h : pushAndMove v t = .ok u) :
    MemoryFrame i t u := by
  obtain ⟨hl, -, rfl⟩ := pushAndMove_ok h
  exact (MemoryFrame.setStack hi fun ht => ⟨Memory.append_wf ht.stackCanonical _, by simpa using hl⟩).trans
    (.untouched rfl)

theorem popAndMove_memory {v : Word} (hi : mayWriteStack i) (h : popAndMove t = .ok (v, u)) :
    MemoryFrame i t u := by
  obtain ⟨-, -, rfl⟩ := popAndMove_ok h
  exact (MemoryFrame.setStack hi fun ht =>
    ⟨popWord_wf ht.stackCanonical, (popWord_size_le _).trans ht.stackWithinLimit⟩).trans (.untouched rfl)

theorem memWrite_memory {sec : Section} {a : Int} {bs : List Byte} (hs : sec = .stack → mayWriteStack i)
    (hh : sec = .heap → mayWriteHeap i) (h : memWrite t sec a bs = .ok u) : MemoryFrame i t u := by
  obtain ⟨h0, ⟨rfl, hl, rfl⟩ | ⟨rfl, hl, rfl⟩⟩ := memWrite_ok h
  · exact .setHeap (hh rfl) fun ht => ht.heapInv.write (by omega)
  · refine .setStack (hs rfl) fun ht => ⟨Memory.writeBytes_wf (Memory.grow_wf ht.stackCanonical _) ?_, ?_⟩
    · simp
    · have := ht.stackWithinLimit
      simp only [Memory.writeBytes_size, Memory.grow_size]
      omega

end

theorem callEffect_memory {a : Half} {t u : State} (h : callEffect a t = .ok u) : MemoryFrame (.call a) t u := by
  obtain ⟨-, u1, u2, h1, h2, rfl⟩ := callEffect_ok h
  have hi : mayWriteStack (.call a) := .inl (by simp [Instr.mnemonic])
  exact ((pushAndMove_memory hi h1).trans (pushAndMove_memory hi h2)).trans (.untouched rfl)

theorem retEffect_memory {t u : State} (h : retEffect t = .ok u) : MemoryFrame .ret t u := by
  obtain ⟨bp, u1, r, u2, h1, h2, -, rfl⟩ := retEffect_ok h
  have hi : mayWriteStack .ret := .inl (by simp [Instr.mnemonic])
  have hbp : MemoryFrame .ret u1 (u1.setReg bpReg bp) := .untouched rfl
  exact (((popAndMove_memory hi h1).trans hbp).trans (popAndMove_memory hi h2)).trans (.untouched rfl)

theorem syscall_memory {t u : State} (h : syscall t = .ok u) : MemoryFrame .sysc t u := by
  obtain ⟨-, rfl⟩ | ⟨bs, rfl⟩ | ⟨-, rfl⟩ | ⟨start, hp, ha, rfl⟩ | ⟨hp, hf, rfl⟩ := syscall_ok h
  case inr.inr.inr.inl =>
    have hset : MemoryFrame .sysc t { t with heap := hp } :=
      .setHeap (.inl rfl) fun ht => heapAlloc_inv ht.heapAlignAllowed ht.heapInv ha
    exact hset.trans (.untouched rfl)
  case inr.inr.inr.inr => exact .setHeap (.inl rfl) fun ht => heapFree_inv ht.heapInv hf
  all_goals exact .untouched rfl

theorem effectOf_memory {i : Instr} {t u : State} (h : effectOf i t = .ok u) : MemoryFrame i t u := by
  cases i with
  | load | not | shiftl | shiftr | and | or | eq | neq | gt | lt | gtq | ltq => cases h; exact .untouched rfl
  | add | sub | mul =>
    obtain ⟨-, rfl⟩ := writeChecked_ok h
    exact .untouched rfl
  | div =>
    obtain ⟨-, -, rfl⟩ := divide_ok h
    exact .untouched rfl
  | jmp | jmpf | jmpb | rjmp => exact jumpTo_memory h
  | jeq | jez =>
    simp only [effectOf] at h
    split at h
    · exact jumpTo_memory h
    · cases h; exact .untouched rfl
  | call => exact callEffect_memory h
  | ret => exact retEffect_memory h
  | sw r ra off sec =>
    exact memWrite_memory (by rintro rfl; exact .inr (.inl ⟨r, ra, off, rfl⟩))
      (by rintro rfl; exact .inr (.inl ⟨r, ra, off, rfl⟩)) h
  | sb r ra off sec =>
    exact memWrite_memory (by rintro rfl; exact .inr (.inr ⟨r, ra, off, rfl⟩))
      (by rintro rfl; exact .inr (.inr ⟨r, ra, off, rfl⟩)) h
  | lw =>
    obtain ⟨bs, -, rfl⟩ := lwEffect_ok h
    exact .untouched rfl
  | lb =>
    obtain ⟨bs, -, rfl⟩ := lbEffect_ok h
    exact .untouched rfl
  | sysc => exact syscall_memory h
  | push => exact pushAndMove_memory (.inl (by simp [Instr.mnemonic])) h
  | pop =>
    obtain ⟨v, t', hp, rfl⟩ := popEffect_ok h
    exact (popAndMove_memory (.inl (by simp [Instr.mnemonic])) hp).trans (.untouched rfl)

/-- Advancing the pc and raising a fault touch no memory, so an instruction has the frame of its effect. -/
theorem exec_memory {i : Instr} {s t : State} (h : exec i s = .next t) : MemoryFrame i s t := by
  rcases exec_cases h with h | ⟨f, -, rfl⟩
  · have hadv : MemoryFrame i s (s.advance i.width) := .untouched rfl
    exact hadv.trans (effectOf_memory h)
  · exact .untouched rfl

/-- Settles O3: a step that runs an instruction keeps the invariant by the instruction's memory frame, and every
other step changes the status alone. -/
theorem stepKeepsInvariant : Obligations.StepKeepsInvariant := by
  intro s t hs h
  obtain ⟨-, rfl⟩ | ⟨-, ⟨-, rfl⟩ | ⟨-, rfl⟩ | ⟨-, e, -, rfl⟩ | ⟨-, i, rest, -, hx⟩⟩ := step_cases h
  case inr.inr.inr.inr => exact (exec_memory hx).inv hs
  case inl => exact hs
  all_goals exact .congr (t := s) rfl hs

/-- Settles O19, by the memory frame of every instruction; the read-only block is in its effect's frame. -/
theorem memoryFrameOfNonWriters : Obligations.MemoryFrameOfNonWriters := by
  intro i s t h
  have hm := exec_memory h
  obtain ⟨-, hro, -⟩ := exec_program h
  refine ⟨fun hi a => ?_, fun hi => ⟨fun a => ?_, ?_⟩, fun a => ?_⟩
  · simp only [State.byte?, hm.stack hi]
  · simp only [State.byte?, hm.heap hi]
  · rw [hm.heap hi]
  · simp only [State.byte?, hro]

/-! ### The stack unit (spec/20_memory.md R53, R62 to R67) -/

/-- Settles O40: the bytes read back as the word, and the little-endian number of four bytes is their word's. -/
theorem wordBytesAreLittleEndian : Obligations.WordBytesAreLittleEndian := by
  refine fun w => ⟨_, _, _, _, rfl, ?_⟩
  have h := wordOfBytes_toNat (wordBytes w)
  rwa [wordOfBytes_wordBytes] at h

/-- Cutting off what was appended gives the sequence back. -/
theorem Memory.truncate_append {m : Memory} (h : m.wf) (bs : List Byte) :
    (m.append bs).truncate m.size = m := by
  apply Memory.ext_of_toBytes (Memory.truncate_wf (Memory.append_wf h bs) _) h
  rw [Memory.toBytes_truncate, Memory.toBytes_append h, List.take_left' m.toBytes_length]

theorem popWord_append {st : Memory} (h : st.wf) (v : Word) :
    popWord (st.append (wordBytes v)) = (v, st) := by
  obtain ⟨hv, hst⟩ := popWord_of_toBytes (Memory.toBytes_append h (wordBytes v))
  exact Prod.ext hv (Memory.ext_of_toBytes (popWord_wf (Memory.append_wf h _)) h hst)

theorem popByte_append {st : Memory} (h : st.wf) (b : Byte) : popByte (st.append [b]) = (b, st) := by
  simp [popByte, Memory.truncate_append h, Memory.byte_append h]

/-- Settles O43: a push that succeeds appended the bytes, which the pop takes off again. -/
theorem stackUnitRoundTrip : Obligations.StackUnitRoundTrip := by
  refine fun p st st' h => ⟨fun v hv => ?_, fun b hb => ?_⟩
  · obtain ⟨-, rfl⟩ := stackAppend_ok hv
    exact popWord_append h v
  · obtain ⟨-, rfl⟩ := stackAppend_ok hb
    exact popByte_append h b

/-! ### The equations of `heap_alloc` and `heap_free` (spec/20_memory.md R74 to R79) -/

theorem heapAlloc_nonpos {p : Params} {n : Int} {h : Heap} (hn : n ≤ 0) :
    heapAlloc p n h = .error (.invalidAllocSize n) := by
  rw [heapAlloc, if_pos hn]

section
variable {p : Params} {n : Int} {h : Heap} (hn : 0 < n)
include hn

theorem heapAlloc_reuse {start : Nat} {bs : List Block}
    (hf : firstFit (alignUp p n.toNat) h.blocks = some (start, bs)) :
    heapAlloc p n h = .ok (start, { h with blocks := bs }) := by
  simp only [heapAlloc, if_neg (Int.not_le.2 hn), hf]

theorem heapAlloc_append (hf : firstFit (alignUp p n.toNat) h.blocks = none)
    (hl : h.hbuf.size + alignUp p n.toNat ≤ p.memLimit) :
    heapAlloc p n h =
      .ok (h.hbuf.size,
        { blocks := h.blocks ++ [{ start := h.hbuf.size, size := alignUp p n.toNat, isFree := false }]
          hbuf := h.hbuf.grow (h.hbuf.size + alignUp p n.toNat) }) := by
  simp only [heapAlloc, if_neg (Int.not_le.2 hn), hf, gt_iff_lt, if_neg (Nat.not_lt.2 hl)]

theorem heapAlloc_past (hf : firstFit (alignUp p n.toNat) h.blocks = none)
    (hl : p.memLimit < h.hbuf.size + alignUp p n.toNat) :
    heapAlloc p n h = .error (.resourceExhausted .heap (h.hbuf.size + alignUp p n.toNat)) := by
  simp only [heapAlloc, if_neg (Int.not_le.2 hn), hf, gt_iff_lt, if_pos hl]

end

/-- On a heap with no free block an allocation that succeeds appends (spec/20_memory.md R77). -/
theorem heapAlloc_ok_of_used {p : Params} {n : Int} {h h' : Heap} {start : Nat}
    (hu : ∀ b ∈ h.blocks, b.isFree = false) (e : heapAlloc p n h = .ok (start, h')) :
    0 < n ∧ start = h.hbuf.size ∧
      h' =
        { blocks := h.blocks ++ [{ start := h.hbuf.size, size := alignUp p n.toNat, isFree := false }]
          hbuf := h.hbuf.grow (h.hbuf.size + alignUp p n.toNat) } := by
  obtain ⟨hn, ⟨bs, hf, -⟩ | ⟨-, hs, -, hh⟩⟩ := heapAlloc_ok e
  · rw [firstFit_of_none fun b hb => by simp [hu b hb]] at hf
    cases hf
  · exact ⟨hn, hs, hh⟩

theorem heapFree_none {ptr : Int} {h : Heap} (hb : ∀ c ∈ h.blocks, (c.start : Int) ≠ ptr) :
    heapFree ptr h = .error (.invalidFree ptr) := by
  have hf : h.blocks.find? (fun b => decide ((b.start : Int) = ptr)) = none :=
    List.find?_eq_none.2 fun c hc => by simpa using hb c hc
  simp only [heapFree, hf]

section
variable {ptr : Int} {h : Heap} {pre post : List Block} {b : Block} (hb : h.blocks = pre ++ b :: post)
  (hpre : ∀ c ∈ pre, (c.start : Int) ≠ ptr) (hptr : (b.start : Int) = ptr)
include hb hpre hptr

theorem heapFree_free (hf : b.isFree = true) : heapFree ptr h = .error (.doubleFree ptr) := by
  simp only [heapFree, hb, find_first hpre hptr, hf, if_true]

/-- Freeing a used block, where the list with it marked is given split before its trailing run of free blocks. -/
theorem heapFree_used (hf : b.isFree = false) {kept freed : List Block}
    (hs : pre ++ { b with isFree := true } :: post = kept ++ freed) (hfreed : ∀ c ∈ freed, c.isFree = true)
    (hkept : ∀ c, kept.getLast? = some c → c.isFree = false) :
    heapFree ptr h = .ok { blocks := kept, hbuf := h.hbuf.truncate (h.hbuf.size - sizeSum freed) } := by
  obtain ⟨hdrop, htrail⟩ := trailing_split hfreed hkept
  simp [heapFree, hb, find_first hpre hptr, markFree_first hpre hptr, hf, hs, hdrop, htrail]

end

/-! ### The heap syscalls (spec/46_syscall.md R276, R277) -/

section
variable {s : State} (hd : s.params.syscodesDistinct)
include hd

theorem effectOf_sysc_alloc (hc : s.reg sysReg = s.params.syscodes.alloc) :
    effectOf .sysc (s.advance 1) = sysAlloc (s.advance 1) :=
  have ⟨_, _, _, halloc, _⟩ := syscall_dispatch (t := s.advance 1) hd
  halloc hc

theorem effectOf_sysc_free (hc : s.reg sysReg = s.params.syscodes.free) :
    effectOf .sysc (s.advance 1) = sysFree (s.advance 1) :=
  have ⟨_, _, _, _, hfree, _⟩ := syscall_dispatch (t := s.advance 1) hd
  hfree hc

theorem exec_alloc_ok (hc : s.reg sysReg = s.params.syscodes.alloc) {start : Nat} {h : Heap}
    (e : heapAlloc s.params (s.int argReg) s.heap = .ok (start, h)) :
    exec .sysc s = .next ({ s with pc := s.pc + 1, heap := h }.setReg sysReg (wrap32 start)) := by
  refine exec_ok ((effectOf_sysc_alloc hd hc).trans ?_)
  simp only [sysAlloc, State.advance_params, State.advance_int, State.advance_heap, e]
  rfl

theorem exec_alloc_error (hc : s.reg sysReg = s.params.syscodes.alloc) {f : Fault}
    (e : heapAlloc s.params (s.int argReg) s.heap = .error f) : exec .sysc s = .next (s.raise f) := by
  refine exec_error ((effectOf_sysc_alloc hd hc).trans ?_)
  simp only [sysAlloc, State.advance_params, State.advance_int, State.advance_heap, e]
  rfl

theorem exec_free_ok (hc : s.reg sysReg = s.params.syscodes.free) {h : Heap}
    (e : heapFree (s.int argReg) s.heap = .ok h) :
    exec .sysc s = .next { s with pc := s.pc + 1, heap := h } := by
  refine exec_ok ((effectOf_sysc_free hd hc).trans ?_)
  simp only [sysFree, State.advance_int, State.advance_heap, e]
  rfl

theorem exec_free_error (hc : s.reg sysReg = s.params.syscodes.free) {f : Fault}
    (e : heapFree (s.int argReg) s.heap = .error f) : exec .sysc s = .next (s.raise f) := by
  refine exec_error ((effectOf_sysc_free hd hc).trans ?_)
  simp only [sysFree, State.advance_int, State.advance_heap, e]
  rfl

end

/-- Settles O51: `heap_alloc` refuses the size, and the syscall raises its fault. -/
theorem allocRefusesNonPositiveSize : Obligations.AllocRefusesNonPositiveSize :=
  ⟨fun _ _ _ => heapAlloc_nonpos, fun _ hd hc hn => exec_alloc_error hd hc (heapAlloc_nonpos hn)⟩

/-- Settles O49: the first-fit scan finds nothing, so the block is appended where the limit allows it. -/
theorem allocAppendsBlock : Obligations.AllocAppendsBlock := by
  intro s a hp hc hwf hn hd h1 h2 hfree
  obtain ⟨-, hcodes, halign, hlimit⟩ := hp
  obtain rfl : alignUp s.params (s.int argReg).toNat = a := alignUp_eq halign hd (by omega) (by omega)
  have hf : firstFit (alignUp s.params (s.int argReg).toNat) s.heap.blocks = none :=
    firstFit_of_none fun b hb hx => Nat.not_lt.2 hx.2 (hfree b hb hx.1)
  refine ⟨fun hl => ⟨_, exec_alloc_ok hcodes hc (heapAlloc_append hn hf hl), ?_, rfl, ?_, ?_, rfl⟩,
    fun hl => exec_alloc_error hcodes hc (heapAlloc_past hn hf hl)⟩
  · rw [State.setReg_int_same, wrap32_toInt_of_inI32 (by simp only [InI32]; omega)]
  · simp [Memory.toBytes_grow hwf]
  · exact fun r hr => State.setReg_reg_other _ _ hr

/-- Settles O50: the first-fit scan stops at the given block, and only its mark changes. -/
theorem allocReusesFirstFit : Obligations.AllocReusesFirstFit := by
  intro s a pre post b hp hc hn hd h1 h2 hblocks hpre hb hab hstart
  obtain ⟨-, hcodes, halign, -⟩ := hp
  obtain rfl : alignUp s.params (s.int argReg).toNat = a := alignUp_eq halign hd (by omega) (by omega)
  have hf := firstFit_of_first (post := post) (fun c hc hx => Nat.not_lt.2 hx.2 (hpre c hc hx.1)) hb hab
  rw [← hblocks] at hf
  exact ⟨wrap32 b.start, wrap32_toInt_of_inI32 (by simp only [InI32]; omega),
    exec_alloc_ok hcodes hc (heapAlloc_reuse hn hf)⟩

/-- Settles O52, by what `heap_free` answers for no block, a free block and a used one. -/
theorem freeResult : Obligations.FreeResult := by
  intro s hcodes hc
  refine ⟨fun hb => exec_free_error hcodes hc (heapFree_none hb), fun pre post b hb hother hptr => ?_⟩
  have hpre : ∀ c ∈ pre, (c.start : Int) ≠ s.int argReg := fun c hc => hother c (List.mem_append_left _ hc)
  refine ⟨fun hf => exec_free_error hcodes hc (heapFree_free hb hpre hptr hf),
    fun kept freed hf hs hfreed hkept => ?_⟩
  exact ⟨_, exec_free_ok hcodes hc (heapFree_used hb hpre hptr hf hs hfreed hkept), rfl,
    Memory.toBytes_truncate _ _, rfl⟩

/-- Settles O53: the last block of the list is used and stays so, hence the trailing run of free blocks is empty. -/
theorem freeOfInteriorBlockKeepsLength : Obligations.FreeOfInteriorBlockKeepsLength := by
  intro s pre post b hs hc hb hptr hf ⟨c, hcpost, _⟩
  have hstarts := hb ▸ hs.heapInv.startsIncrease
  have hpre : ∀ d ∈ pre, (d.start : Int) ≠ s.int argReg := fun d hd => by
    have := (List.pairwise_append.1 hstarts).2.2 d hd b (by simp)
    omega
  have hlast : ∀ d, (pre ++ { b with isFree := true } :: post).getLast? = some d → d.isFree = false := by
    rw [getLast?_setFree true (List.ne_nil_of_mem hcpost), ← hb]
    exact hs.heapInv.lastUsed
  have hfree := heapFree_used hb hpre hptr hf (List.append_nil _).symm (by simp) hlast
  exact ⟨_, exec_free_ok hs.syscodesDistinct hc hfree,
    Memory.truncate_ge hs.heapInv.canonical (by simp), rfl, rfl⟩

/-! ### The heap laws (spec/20_memory.md R82) -/

/-- Freeing the one block of a heap leaves none. -/
theorem heapFree_single (A : Nat) (buf : Memory) :
    heapFree (0 : Nat) { blocks := [⟨0, A, false⟩], hbuf := buf } =
      .ok { blocks := [], hbuf := buf.truncate (buf.size - A) } :=
  heapFree_used (b := ⟨0, A, false⟩) (pre := []) (kept := []) (freed := [⟨0, A, true⟩]) rfl (by simp) rfl rfl
    rfl (by simp) (by simp)

section
variable {A B : Nat} (hA : 0 < A) (buf : Memory)
include hA

/-- Freeing the newer of two blocks where both are used leaves the older. -/
theorem heapFree_newer :
    heapFree A { blocks := [⟨0, A, false⟩, ⟨A, B, false⟩], hbuf := buf } =
      .ok { blocks := [⟨0, A, false⟩], hbuf := buf.truncate (buf.size - B) } :=
  heapFree_used (b := ⟨A, B, false⟩) (pre := [⟨0, A, false⟩]) (kept := [⟨0, A, false⟩]) (freed := [⟨A, B, true⟩]) rfl
    (by simpa using hA.ne) rfl rfl rfl (by simp) (by simp)

/-- Freeing the newer block where the older is already free leaves none. -/
theorem heapFree_newer_of_older_free :
    heapFree A { blocks := [⟨0, A, true⟩, ⟨A, B, false⟩], hbuf := buf } =
      .ok { blocks := [], hbuf := buf.truncate (buf.size - (A + B)) } :=
  heapFree_used (b := ⟨A, B, false⟩) (pre := [⟨0, A, true⟩]) (kept := []) (freed := [⟨0, A, true⟩, ⟨A, B, true⟩]) rfl
    (by simpa using hA.ne) rfl rfl rfl (by simp) (by simp)

end

/-- Freeing the older of two used blocks cuts nothing off. -/
theorem heapFree_older (A B : Nat) (buf : Memory) :
    heapFree (0 : Nat) { blocks := [⟨0, A, false⟩, ⟨A, B, false⟩], hbuf := buf } =
      .ok { blocks := [⟨0, A, true⟩, ⟨A, B, false⟩], hbuf := buf.truncate buf.size } :=
  heapFree_used (b := ⟨0, A, false⟩) (pre := []) (kept := [⟨0, A, true⟩, ⟨A, B, false⟩]) (freed := []) rfl (by simp) rfl
    rfl rfl (by simp) (by simp)

/-- Settles O54: the two allocations lay two used blocks end to end, and each order of freeing them is computed. -/
theorem heapLawsOnEmptyHeap : Obligations.HeapLawsOnEmptyHeap := by
  intro p n m a b h1 h2 ⟨_, _, hp, _⟩ e1
  obtain ⟨hn, rfl, rfl⟩ := heapAlloc_ok_of_used (by simp) e1
  have hA := alignUp_pos hp hn
  refine ⟨⟨_, heapFree_single _ _, by simp [Memory.empty]⟩, fun e2 => ?_⟩
  obtain ⟨hm, rfl, rfl⟩ := heapAlloc_ok_of_used (by simp) e2
  have hB := alignUp_pos hp hm
  have hstart : Memory.empty.size = 0 := rfl
  simp only [hstart, List.nil_append, List.cons_append, Memory.grow_size, Nat.zero_add, Nat.zero_max]
  refine ⟨⟨_, _, heapFree_newer hA _, ?_, heapFree_single _ _, ?_⟩,
    ⟨_, _, heapFree_older _ _ _, ?_, heapFree_newer_of_older_free hA _, ?_⟩⟩
  all_goals
    simp only [Memory.truncate_size, Memory.grow_size, hstart]
    omega

end Sys2Proof.Machine

/-! ## The encoding, and what a step fetches -/

namespace Sys2Proof

theorem Mnemonic.width_pos (m : Mnemonic) : 0 < m.width := by cases m <;> decide

theorem Mnemonic.width_le_longest (m : Mnemonic) : m.width ≤ longestWidth := by cases m <;> decide

theorem encode_length (p : Params) (i : Instr) : (encode p i).length = i.width := by cases i <;> rfl

/-! ### Operand fields (spec/30_encoding.md R101, R102)

A list of operand fields decodes to an instruction exactly where its bytes are those of the operands. -/

section
variable {I : List Byte} {i : Instr}

theorem bind_eq_ok_iff {ε α β : Type} {x : Except ε α} {f : α → Except ε β} {b : β} :
    x >>= f = .ok b ↔ ∃ a, x = .ok a ∧ f a = .ok b :=
  ⟨Machine.bind_ok, fun ⟨_, hx, hf⟩ => hx ▸ hf⟩

theorem regField_eq_ok_iff {k : Nat} {r : Reg} : regField I k = .ok r ↔ byteField I k = Reg.toByte r :=
  ⟨fun h => (Reg.toByte_of_ofByte h).symm, fun h => by rw [regField, h, Reg.ofByte_toByte]⟩

theorem sectionField_eq_ok_iff {k : Nat} {sec : Section} :
    sectionField I k = .ok sec ↔ byteField I k = sec.toByte :=
  ⟨fun h => (Section.toByte_of_ofByte h).symm, fun h => by rw [sectionField, h, Section.ofByte_toByte]⟩

/-- The two bytes of a 16-bit field are those it is read from. -/
theorem halfBytes_be16Field (I : List Byte) (k : Nat) :
    halfBytes (be16Field I k) = [byteField I k, byteField I (k + 1)] :=
  congrArg₂ (fun hi lo => [hi, lo]) BitVec.extractLsb'_append_eq_left BitVec.extractLsb'_append_eq_right

theorem fieldsR_eq_ok_iff {mk : Reg → Instr} :
    fieldsR I mk = .ok i ↔ ∃ r, byteField I 1 = Reg.toByte r ∧ mk r = i := by
  simp only [fieldsR, bind_eq_ok_iff, regField_eq_ok_iff, Except.ok.injEq]

theorem fieldsRR_eq_ok_iff {mk : Reg → Reg → Instr} :
    fieldsRR I mk = .ok i ↔
      ∃ ra, byteField I 1 = Reg.toByte ra ∧ ∃ rb, byteField I 2 = Reg.toByte rb ∧ mk ra rb = i := by
  simp only [fieldsRR, bind_eq_ok_iff, regField_eq_ok_iff, Except.ok.injEq]

theorem fieldsRRR_eq_ok_iff {mk : Reg → Reg → Reg → Instr} :
    fieldsRRR I mk = .ok i ↔
      ∃ ra, byteField I 1 = Reg.toByte ra ∧ ∃ rb, byteField I 2 = Reg.toByte rb ∧
        ∃ rd, byteField I 3 = Reg.toByte rd ∧ mk ra rb rd = i := by
  simp only [fieldsRRR, bind_eq_ok_iff, regField_eq_ok_iff, Except.ok.injEq]

theorem fieldsRH_eq_ok_iff {mk : Reg → Half → Instr} :
    fieldsRH I mk = .ok i ↔ ∃ r, byteField I 1 = Reg.toByte r ∧ mk r (be16Field I 2) = i := by
  simp only [fieldsRH, bind_eq_ok_iff, regField_eq_ok_iff, Except.ok.injEq]

theorem fieldsRM_eq_ok_iff {mk : Reg → Reg → Byte → Section → Instr} :
    fieldsRM I mk = .ok i ↔
      ∃ r, byteField I 1 = Reg.toByte r ∧ ∃ ra, byteField I 2 = Reg.toByte ra ∧
        ∃ sec : Section, byteField I 4 = sec.toByte ∧ mk r ra (byteField I 3) sec = i := by
  simp only [fieldsRM, bind_eq_ok_iff, regField_eq_ok_iff, sectionField_eq_ok_iff, Except.ok.injEq]

end

/-- The operand fields of an encoding are the instruction's own operands. -/
theorem decodeFields_encode (p : Params) (i : Instr) (rest : List Byte) :
    decodeFields (encode p i ++ rest) i.mnemonic = .ok i := by
  cases i with
  | ret | sysc => rfl
  | jmp t | jmpf t | jmpb t | jeq t | call t =>
    simp [Instr.mnemonic, decodeFields, encode, Instr.operandBytes, halfBytes, be16Field, byteField]
  | not | push | pop | rjmp => exact fieldsR_eq_ok_iff.2 ⟨_, rfl, rfl⟩
  | eq | neq | gt | lt | gtq | ltq | shiftl | shiftr | and | or =>
    exact fieldsRR_eq_ok_iff.2 ⟨_, rfl, _, rfl, rfl⟩
  | add | sub | mul | div => exact fieldsRRR_eq_ok_iff.2 ⟨_, rfl, _, rfl, _, rfl, rfl⟩
  | load _ h | jez _ h => exact fieldsRH_eq_ok_iff.2 ⟨_, rfl, congrArg _ (halfBytes_join h)⟩
  | sw | lw | sb | lb => exact fieldsRM_eq_ok_iff.2 ⟨_, rfl, _, rfl, _, rfl, rfl⟩

/-- An instruction decoded has the mnemonic asked for, and its operand bytes are those after the first byte. -/
theorem decodeFields_ok {I : List Byte} {m : Mnemonic} {i : Instr} (h : decodeFields I m = .ok i) :
    i.mnemonic = m ∧ byteField I 0 :: i.operandBytes = (List.range m.width).map (byteField I) := by
  cases m with
  | ret | sysc => cases h; exact ⟨rfl, rfl⟩
  | jmp | jmpf | jmpb | jeq | call =>
    cases h
    exact ⟨rfl, congrArg _ (halfBytes_be16Field I 1)⟩
  | not | push | pop | rjmp =>
    obtain ⟨r, hr, rfl⟩ := fieldsR_eq_ok_iff.1 h
    exact ⟨rfl, by rw [Instr.operandBytes, ← hr]; rfl⟩
  | eq | neq | gt | lt | gtq | ltq | shiftl | shiftr | and | or =>
    obtain ⟨ra, ha, rb, hb, rfl⟩ := fieldsRR_eq_ok_iff.1 h
    exact ⟨rfl, by rw [Instr.operandBytes, ← ha, ← hb]; rfl⟩
  | add | sub | mul | div =>
    obtain ⟨ra, ha, rb, hb, rd, hd, rfl⟩ := fieldsRRR_eq_ok_iff.1 h
    exact ⟨rfl, by rw [Instr.operandBytes, ← ha, ← hb, ← hd]; rfl⟩
  | load | jez =>
    obtain ⟨r, hr, rfl⟩ := fieldsRH_eq_ok_iff.1 h
    exact ⟨rfl, by rw [Instr.operandBytes, ← hr, halfBytes_be16Field]; rfl⟩
  | sw | lw | sb | lb =>
    obtain ⟨r, hr, ra, ha, sec, hs, rfl⟩ := fieldsRM_eq_ok_iff.1 h
    exact ⟨rfl, by rw [Instr.operandBytes, ← hr, ← ha, ← hs]; rfl⟩

/-- The first bytes of a list that has them, read field by field. -/
theorem map_byteField_range {I : List Byte} {n : Nat} (h : n ≤ I.length) :
    (List.range n).map (byteField I) = I.take n := by
  refine List.ext_getElem (by simpa using h) fun k hk hk' => ?_
  have : k < I.length := by simp at hk; omega
  simp [byteField, this]

/-! ### Decoding, case by case (spec/30_encoding.md R120) -/

section
variable {p : Params} {bs : List Byte} (h0 : bs ≠ [])
include h0

theorem decode_of_no_mnemonic (hm : p.mnemonicOf (byteField bs 0) = none) :
    decode p bs = .error (.illegalOpcode (byteField bs 0)) := by
  obtain ⟨op, tl, rfl⟩ := List.exists_cons_of_ne_nil h0
  rw [byteField, List.getD_cons_zero] at hm ⊢
  simp only [decode, hm]

/-- Past the opcode byte, decoding is the check of the length and then the operand fields. -/
theorem decode_of_mnemonic {m : Mnemonic} (hm : p.mnemonicOf (byteField bs 0) = some m) :
    decode p bs =
      if bs.length < m.width then .error (.truncated (byteField bs 0))
      else (decodeFields bs m).map fun i => (i, bs.drop m.width) := by
  obtain ⟨op, tl, rfl⟩ := List.exists_cons_of_ne_nil h0
  rw [byteField, List.getD_cons_zero] at hm ⊢
  simp only [decode, hm]
  cases decodeFields (op :: tl) m <;> rfl

end

/-- Everything a decoding that succeeds says of its bytes. -/
theorem decode_ok {p : Params} {bs rest : List Byte} {i : Instr} (h : decode p bs = .ok (i, rest)) :
    ∃ m, p.mnemonicOf (byteField bs 0) = some m ∧ m.width ≤ bs.length ∧ decodeFields bs m = .ok i ∧
      bs.drop m.width = rest := by
  have h0 : bs ≠ [] := by rintro rfl; cases h
  cases hm : p.mnemonicOf (byteField bs 0) with
  | none => rw [decode_of_no_mnemonic h0 hm] at h; cases h
  | some m =>
    rw [decode_of_mnemonic h0 hm] at h
    split_ifs at h with hw
    cases hf : decodeFields bs m with
    | error e => rw [hf] at h; cases h
    | ok j => rw [hf] at h; cases h; exact ⟨m, rfl, Nat.not_lt.1 hw, hf, rfl⟩

/-- Settles O5: the opcode byte names the mnemonic, the length suffices, and the fields are the operands. -/
theorem decodeOfEncodeIsIdentity : Obligations.DecodeOfEncodeIsIdentity := by
  intro p i rest hp
  have hm : p.mnemonicOf (byteField (encode p i ++ rest) 0) = some i.mnemonic :=
    Params.mnemonicOf_opcode hp i.mnemonic
  have hl : (encode p i).length = i.mnemonic.width := encode_length p i
  rw [decode_of_mnemonic (by simp [encode]) hm, if_neg (by simp [hl]), decodeFields_encode, ← hl]
  simp [Except.map]

/-- Settles O6: the opcode byte is the instruction's, and so is every byte of its operand fields. -/
theorem decodedBytesAreTheEncoding : Obligations.DecodedBytesAreTheEncoding := by
  intro p bs i rest h
  obtain ⟨m, hm, hw, hf, rfl⟩ := decode_ok h
  obtain ⟨rfl, hb⟩ := decodeFields_ok hf
  have he : encode p i = bs.take i.mnemonic.width := by
    rw [encode, Params.opcode_of_mnemonicOf hm, hb, map_byteField_range hw]
  rw [he, List.take_append_drop]

end Sys2Proof

namespace Sys2Proof.Machine

/-! ### The bytes a step fetches (spec/30_encoding.md R120) -/

section
variable {s : State}

theorem instrBytes_length (s : State) : (instrBytes s).length = min longestWidth (s.prog.size - s.pc) :=
  Memory.readBytes_length _ _ _

theorem instrBytes_ne_nil (hp : s.pc < s.prog.size) : instrBytes s ≠ [] := by
  rw [← List.length_pos_iff, instrBytes_length, longestWidth]
  omega

/-- The bytes fetched are those of the stream from the pc on, up to its end. -/
theorem instrBytes_getElem? {k : Nat} (hk : k < longestWidth) :
    (instrBytes s)[k]? = s.prog.byte? (s.pc + k) := by
  have h : k < min longestWidth (s.prog.size - s.pc) ↔ s.pc + k < s.prog.size := by omega
  simp only [instrBytes, Memory.readBytes_getElem?, Memory.byte?, h]

theorem byteField_instrBytes {k : Nat} (hk : k < longestWidth) (h : s.pc + k < s.prog.size) :
    byteField (instrBytes s) k = s.prog.byte (s.pc + k) := by
  simp [byteField, instrBytes_getElem? hk, Memory.byte?, h]

theorem opcode_instrBytes (hp : s.pc < s.prog.size) : byteField (instrBytes s) 0 = s.prog.byte s.pc :=
  byteField_instrBytes (by decide) hp

theorem width_le_instrBytes_length_iff (s : State) (m : Mnemonic) (hp : s.pc < s.prog.size) :
    m.width ≤ (instrBytes s).length ↔ s.pc + m.width ≤ s.prog.size := by
  have := m.width_le_longest
  rw [instrBytes_length]
  omega

end

/-- Settles O8: a fetch inside the stream whose bytes decode runs the instruction. -/
theorem stepRunsDecodedInstruction : Obligations.StepRunsDecodedInstruction :=
  fun _ _ _ hs hp hd => step_of_decode_ok hs hp hd

/-- Settles O9: the bytes fetched start with the encoding, which decodes to the instruction. -/
theorem stepRunsEncodedInstruction : Obligations.StepRunsEncodedInstruction := by
  intro s i hs hd hb
  have hwidth : i.width ≤ longestWidth := i.mnemonic.width_le_longest
  have hp : s.pc < s.prog.size := by
    have h := hb 0 i.mnemonic.width_pos
    by_contra hn
    simp [Memory.byte?, hn, encode] at h
  have htake : (instrBytes s).take i.width = encode s.params i := by
    refine List.ext_getElem? fun k => ?_
    by_cases hk : k < i.width
    · rw [List.getElem?_take_of_lt hk, instrBytes_getElem? (by omega), hb k hk]
    · rw [List.getElem?_take, if_neg hk, List.getElem?_eq_none (by rw [encode_length]; omega)]
  have hdec := decodeOfEncodeIsIdentity s.params i ((instrBytes s).drop i.width) hd
  rw [← htake, List.take_append_drop] at hdec
  exact step_of_decode_ok hs hp hdec

/-- Settles O12: the byte at the pc is the opcode decoded, and the stream's end cuts the bytes fetched short. -/
theorem fetchFaultsOnOpcodeAndLength : Obligations.FetchFaultsOnOpcodeAndLength := by
  intro s hs hp
  have h0 := instrBytes_ne_nil hp
  rw [← opcode_instrBytes hp]
  refine ⟨fun hm => step_of_decode_error hs hp (decode_of_no_mnemonic h0 hm), fun m hm hw => ?_⟩
  have hshort : (instrBytes s).length < m.width := by
    have := width_le_instrBytes_length_iff s m hp
    omega
  have hd := decode_of_mnemonic h0 hm
  rw [if_pos hshort] at hd
  exact step_of_decode_error hs hp hd

/-! ### The first bad operand field (spec/30_encoding.md R121, R122) -/

theorem registerFields_lt_width {m : Mnemonic} : ∀ k ∈ registerFields m.format, k < m.width := by
  cases m <;> decide

section
variable {I : List Byte} {k : Nat}

/-- A register field that names a register is passed, and decoding goes on with that register. -/
theorem regField_bind_good {f : Reg → Except DecodeError Instr} (h : (byteField I k).toNat < 35) :
    regField I k >>= f = f ⟨(byteField I k).toNat, h⟩ := by
  rw [regField, Reg.ofByte_good h]
  rfl

theorem regField_bind_bad {f : Reg → Except DecodeError Instr} (h : 35 ≤ (byteField I k).toNat) :
    regField I k >>= f = .error (.badRegister (byteField I k)) := by
  rw [regField, Reg.ofByte_bad h]
  rfl

theorem sectionField_bind_bad {f : Section → Except DecodeError Instr} (h : 2 ≤ (byteField I k).toNat) :
    sectionField I k >>= f = .error (.badSection (byteField I k)) := by
  rw [sectionField, Section.ofByte_bad h]
  rfl

/-- The register fields are read in the order of their bytes, so the first bad one is the error. -/
theorem decodeFields_badRegister {m : Mnemonic} (hk : k ∈ registerFields m.format)
    (hgood : ∀ j ∈ registerFields m.format, j < k → (byteField I j).toNat < 35)
    (hbad : 35 ≤ (byteField I k).toNat) : decodeFields I m = .error (.badRegister (byteField I k)) := by
  cases m with
  | ret | sysc | jmp | jmpf | jmpb | jeq | call => cases hk
  | not | push | pop | rjmp | load | jez =>
    obtain rfl : k = 1 := by simpa [registerFields, Mnemonic.format] using hk
    exact regField_bind_bad hbad
  | eq | neq | gt | lt | gtq | ltq | shiftl | shiftr | and | or | sw | lw | sb | lb =>
    obtain rfl | rfl : k = 1 ∨ k = 2 := by simpa [registerFields, Mnemonic.format] using hk
    · exact regField_bind_bad hbad
    · exact (regField_bind_good (hgood 1 (by decide) (by decide))).trans (regField_bind_bad hbad)
  | add | sub | mul | div =>
    obtain rfl | rfl | rfl : k = 1 ∨ k = 2 ∨ k = 3 := by simpa [registerFields, Mnemonic.format] using hk
    · exact regField_bind_bad hbad
    · exact (regField_bind_good (hgood 1 (by decide) (by decide))).trans (regField_bind_bad hbad)
    · exact (regField_bind_good (hgood 1 (by decide) (by decide))).trans
        ((regField_bind_good (hgood 2 (by decide) (by decide))).trans (regField_bind_bad hbad))

/-- The section field is read after the register fields before it. -/
theorem decodeFields_badSection {m : Mnemonic} (hm : m.format = .rm)
    (hgood : ∀ j ∈ registerFields m.format, (byteField I j).toNat < 35)
    (hbad : 2 ≤ (byteField I 4).toNat) : decodeFields I m = .error (.badSection (byteField I 4)) := by
  rw [hm] at hgood
  have hfields (mk) : fieldsRM I mk = .error (.badSection (byteField I 4)) :=
    (regField_bind_good (hgood 1 (by decide))).trans
      ((regField_bind_good (hgood 2 (by decide))).trans (sectionField_bind_bad hbad))
  cases m with
  | sw | lw | sb | lb => exact hfields _
  | _ => cases hm

end

/-- A whole instruction whose operand fields do not decode faults with their error. -/
theorem step_of_decodeFields_error {s : State} {m : Mnemonic} (hs : s.status = .running)
    (hw : s.pc + m.width ≤ s.prog.size) (hm : s.params.mnemonicOf (s.prog.byte s.pc) = some m) {e : DecodeError}
    (hf : decodeFields (instrBytes s) m = .error e) :
    step s = .next (s.raise (faultOfDecode s.pc s.prog.size e)) := by
  have hp : s.pc < s.prog.size := by
    have := m.width_pos
    omega
  have hlen := (width_le_instrBytes_length_iff s m hp).2 hw
  rw [← opcode_instrBytes hp] at hm
  apply step_of_decode_error hs hp
  rw [decode_of_mnemonic (instrBytes_ne_nil hp) hm, if_neg (Nat.not_lt.2 hlen), hf]
  rfl

/-- Settles O13: the operand fields are checked in the order of their bytes. -/
theorem badOperandFieldFaults : Obligations.BadOperandFieldFaults := by
  intro s m hs hw hm
  have hbyte : ∀ k < m.width, byteField (instrBytes s) k = s.prog.byte (s.pc + k) := fun k hk =>
    byteField_instrBytes (by have := m.width_le_longest; omega) (by omega)
  have hreg : ∀ k ∈ registerFields m.format, byteField (instrBytes s) k = s.prog.byte (s.pc + k) :=
    fun k hk => hbyte k (registerFields_lt_width k hk)
  refine ⟨fun k hk hgood hbad => ?_, fun hrm hgood hbad => ?_⟩
  · rw [← hreg k hk] at hbad ⊢
    exact step_of_decodeFields_error hs hw hm
      (decodeFields_badRegister hk (fun j hj hjk => hreg j hj ▸ hgood j hj hjk) hbad)
  · rw [← hbyte 4 (by rw [Mnemonic.width, hrm]; decide)] at hbad ⊢
    exact step_of_decodeFields_error hs hw hm
      (decodeFields_badSection hrm (fun j hj => hreg j hj ▸ hgood j hj) hbad)

/-! ### Where no instruction runs (spec/30_encoding.md R131, R133) -/

theorem runOnce_of_next {s t : State} (h : step s = .next t) : runOnce s = (t, decide (t.status = .running)) := by
  rw [runOnce, h]

/-- Settles O10, by the equations of a step at the stream's end and past it. -/
theorem stepAtAndPastStreamEnd : Obligations.StepAtAndPastStreamEnd :=
  fun _ hs => ⟨step_at_end hs, step_past_end hs⟩

/-- Settles O11: the step answers the same state, whose status is not Running. -/
theorem terminalStatusStays : Obligations.TerminalStatusStays := by
  intro s hs
  have h := step_of_terminal hs
  exact ⟨h, by rw [runOnce_of_next h, decide_eq_false hs]⟩

/-- Settles O7, by evaluating the decoder on the eight words. -/
theorem sampleWordsDecode : Obligations.SampleWordsDecode := by
  unfold Obligations.SampleWordsDecode
  decide

/-! ### The empty program (spec/70_reset_and_hazards.md R343, R347) -/

/-- The length of the read-only block that a header gives (spec/30_encoding.md R106). -/
theorem roBlockLength_header (magic : Vector Byte 4) (b0 b1 b2 b3 : Byte) (rest : List Byte) :
    roBlockLength (magic.toList ++ [b0, b1, b2, b3] ++ rest) = le32 b0 b1 b2 b3 := by
  rw [roBlockLength, List.append_assoc, List.drop_left' (by simp), wordOfBytes_toNat]
  rfl

/-- An image that passes the loader's checks is installed. -/
theorem loadBytecode_of_checks {img : List Byte} {s : State} (hmagic : img.take 4 = s.params.magic.toList)
    (hlen : headerLength + roBlockLength img ≤ img.length) :
    loadBytecode img s = (installImage s.params img, .ok ()) := by
  have hheader : ¬img.length < headerLength := by omega
  rw [loadBytecode, if_neg hheader, if_neg (not_not.2 hmagic), if_neg (Nat.not_lt.2 hlen)]

/-- A header alone installs the state of a machine never loaded. -/
theorem installImage_header {p : Params} {img : List Byte} (hro : roBlockLength img = 0)
    (hlen : img.length = headerLength) : installImage p img = State.initial p := by
  rw [installImage, hro, List.take_zero, List.drop_eq_nil_of_le (i := headerLength + 0) hlen.le]
  rfl

theorem step_initial (p : Params) :
    step (State.initial p) = .next ((State.initial p).halt .endOfStream) :=
  step_at_end rfl rfl

/-- Settles O59: the header alone installs the initial state, whose stream is empty. -/
theorem emptyProgramEndsNormally : Obligations.EmptyProgramEndsNormally := by
  refine ⟨fun img s pad himg hlen => ?_, step_initial⟩
  have hro : roBlockLength img = 0 := himg ▸ roBlockLength_header s.params.magic 0 0 0 0 pad
  have hmagic : img.take 4 = s.params.magic.toList := by
    rw [himg, List.append_assoc, List.take_left' (by simp)]
  rw [loadBytecode_of_checks hmagic (by rw [hro, hlen]; rfl), installImage_header hro hlen]
  exact step_initial s.params

end Sys2Proof.Machine

namespace Sys2Proof.Machine

/-! ### The immediate load (spec/40_load.md R141) -/

/-- A zero-extended half word is below the sign bit, so its signed value is the half word's unsigned one. -/
theorem zext16_toInt (h : Half) : (zext16 h).toInt = h.toNat := by
  rw [zext16, BitVec.toInt_setWidth, Int.bmod_eq_of_le] <;> omega

/-- Settles O23: the load's effect writes the zero-extended immediate over the advanced state and cannot fail. -/
theorem loadWritesUnsignedImmediate : Obligations.LoadWritesUnsignedImmediate :=
  fun _ _ imm => ⟨rfl, zext16 imm, zext16_toInt imm, exec_ok rfl⟩

end Sys2Proof.Machine

namespace Sys2Proof.Machine

/-! ### Arithmetic (spec/41_arithmetic.md R150 to R156) -/

/-- The overflow law of R150: an instruction of width 4 whose effect is a checked write of `v` to `rd` writes a word
congruent to `v` modulo 2^32, equal to it inside i32, where `v` fits, and raises `ArithmeticOverflow` where not. -/
theorem exec_of_writeChecked {i : Instr} {s : State} {rd : Reg} {v : Int} (hw : i.width = 4)
    (he : effectOf i (s.advance 4) = writeChecked rd v (s.advance 4)) :
    (s.fits v →
      ∃ w : Word, (4294967296 : Int) ∣ w.toInt - v ∧ (InI32 v → w.toInt = v) ∧
        exec i s = .next ((s.advance 4).setReg rd w)) ∧
      (¬s.fits v → exec i s = .next (s.raise (.arithmeticOverflow v))) := by
  rw [← hw] at he ⊢
  refine ⟨fun hfits => ?_, fun hfits => ?_⟩
  · exact ⟨wrap32 v, wrap32_toInt_congr v, wrap32_toInt_of_inI32, exec_ok (he.trans (writeChecked_within hfits))⟩
  · exact exec_error (he.trans (writeChecked_past hfits))

/-- Settles O24: ADD's effect is a checked write of the exact sum. -/
theorem addResult : Obligations.AddResult :=
  fun _ _ _ _ => ⟨rfl, exec_of_writeChecked rfl rfl⟩

/-- Settles O25: SUB's effect is a checked write of the exact difference. -/
theorem subResult : Obligations.SubResult :=
  fun _ _ _ _ => ⟨rfl, exec_of_writeChecked rfl rfl⟩

/-- Settles O26: MUL's effect is a checked write of the exact product. -/
theorem mulResult : Obligations.MulResult :=
  fun _ _ _ _ => ⟨rfl, exec_of_writeChecked rfl rfl⟩

/-- Of two registers' values, only the quotient of -2^31 by -1 leaves `i32` (R150). -/
theorem wrap32_tdiv_toInt {s : State} {ra rb : Reg} (h : ¬(s.int ra = -2147483648 ∧ s.int rb = -1)) :
    (wrap32 ((s.int ra).tdiv (s.int rb))).toInt = (s.int ra).tdiv (s.int rb) := by
  have hne : s.reg ra ≠ BitVec.intMin 32 ∨ s.reg rb ≠ -1#32 :=
    (not_and_or.1 h).imp (mt (congrArg BitVec.toInt)) (mt (congrArg BitVec.toInt))
  rw [State.int, State.int, ← BitVec.toInt_sdiv_of_ne_or_ne _ _ hne, wrap32_toInt]

/-- The remainder of two registers' values always lies in `i32` (R156). -/
theorem wrap32_tmod_toInt (s : State) (ra rb : Reg) :
    (wrap32 ((s.int ra).tmod (s.int rb))).toInt = (s.int ra).tmod (s.int rb) := by
  rw [State.int, State.int, ← BitVec.toInt_srem, wrap32_toInt]

section
variable {rd : Reg} {a b : Int} {t : State}

theorem divide_zero (h : b = 0) : divide rd a b t = .error .divideByZero := if_pos h

theorem divide_overflow (ha : a = -2147483648) (hb : b = -1) : divide rd a b t = .error .divideOverflow := by
  rw [divide, if_neg (by omega), if_pos ⟨ha, hb⟩]

theorem divide_within (hb : b ≠ 0) (h : ¬(a = -2147483648 ∧ b = -1)) :
    divide rd a b t = .ok { t.setReg rd (wrap32 (a.tdiv b)) with rem := wrap32 (a.tmod b) } := by
  rw [divide, if_neg hb, if_neg h]

end

/-- Settles O27, by the three cases of the division; quotient and remainder lie in `i32`, so wrapping keeps them. -/
theorem divResult : Obligations.DivResult := by
  refine fun s ra rb rd => ⟨rfl, fun hb => ?_, fun ha hb => ?_, fun hb hne => ?_⟩
  · exact exec_error (divide_zero hb)
  · exact exec_error (divide_overflow ha hb)
  · exact ⟨_, _, wrap32_tdiv_toInt hne, wrap32_tmod_toInt s ra rb, exec_ok (divide_within hb hne)⟩

/-! The two laws of R150 about the truncating remainder that the library does not state. -/

theorem abs_tmod_lt (a : Int) {b : Int} (hb : b ≠ 0) : |a.tmod b| < |b| := by
  rw [Int.abs_eq_natAbs, Int.abs_eq_natAbs, Int.natAbs_tmod]
  exact_mod_cast Nat.mod_lt _ (Int.natAbs_pos.2 hb)

theorem tmod_nonpos {a : Int} (b : Int) (ha : a ≤ 0) : a.tmod b ≤ 0 := by
  have h := Int.tmod_nonneg b (Int.neg_nonneg.2 ha)
  rwa [Int.neg_tmod, Int.neg_nonneg] at h

/-- A DIV that did not fault leaves the exact quotient in `rd` and the exact remainder in `rem`. -/
theorem exec_div_values {s t : State} {ra rb rd : Reg} (h : exec (.div ra rb rd) s = .next t) (hf : t.failed = false) :
    s.int rb ≠ 0 ∧ t.int rd = (s.int ra).tdiv (s.int rb) ∧ t.rem.toInt = (s.int ra).tmod (s.int rb) := by
  obtain hok | ⟨f, -, rfl⟩ := exec_cases h
  · obtain ⟨hb, hne, rfl⟩ := divide_ok hok
    exact ⟨hb, (State.setReg_int_same _ rd _).trans (wrap32_tdiv_toInt hne), wrap32_tmod_toInt s ra rb⟩
  · cases hf

/-- Settles O28, by the library's law of truncating division for the values a DIV leaves. -/
theorem divQuotientRemainderLaw : Obligations.DivQuotientRemainderLaw := by
  intro s t ra rb rd _ hexec hfailed
  obtain ⟨hb, hquot, hrem⟩ := exec_div_values hexec hfailed
  rw [hquot, hrem]
  exact ⟨(Int.mul_tdiv_add_tmod _ _).symm, abs_tmod_lt _ hb, Int.tmod_nonneg _, tmod_nonpos _⟩

end Sys2Proof.Machine

namespace Sys2Proof.Machine

/-! ### Comparisons (spec/42_comparison.md R171 to R176) -/

/-- Settles O29: a comparison's effect cannot fail; it writes its result over the advanced state, whose registers
are those before. -/
theorem comparisonsWriteTheFlag : Obligations.ComparisonsWriteTheFlag := by
  intro s ra rb
  exact ⟨rfl, exec_ok rfl, rfl, exec_ok rfl, rfl, exec_ok rfl,
    rfl, exec_ok rfl, rfl, exec_ok rfl, rfl, exec_ok rfl⟩

end Sys2Proof.Machine

namespace Sys2Proof.Machine

/-! ### Jumps (spec/43_control.md R191 to R197) -/

/-- An instruction whose effect ends in a jump to `n` (spec/10_state.md R29): the pc becomes `n`, or a negative `n`
is out of range and what the effect did before is discarded. -/
theorem exec_of_jumpTo {i : Instr} {s u : State} {n : Int} (he : effectOf i (s.advance i.width) = jumpTo n u) :
    (0 ≤ n → exec i s = .next { u with pc := n.toNat }) ∧
      (n < 0 → exec i s = .next (s.raise (.pcOutOfRange n))) :=
  ⟨fun h => exec_ok (he.trans (jumpTo_nonneg h _)), fun h => exec_error (he.trans (jumpTo_neg h _))⟩

/-- A conditional jump to an absolute target falls through where its condition fails. -/
theorem exec_of_branch {i : Instr} {s : State} {c : Prop} [Decidable c] {a : Nat}
    (he : effectOf i (s.advance i.width) = if c then jumpTo a (s.advance i.width) else .ok (s.advance i.width)) :
    exec i s = .next { s with pc := if c then a else s.pc + i.width } := by
  by_cases hc : c
  · rw [if_pos hc, jumpTo_nat] at he
    rw [if_pos hc, exec_ok he]
    rfl
  · rw [if_neg hc] at he
    rw [if_neg hc, exec_ok he]
    rfl

/-- Settles O31: both effects are jumps relative to the advanced pc. -/
theorem relativeJumps : Obligations.RelativeJumps := by
  intro s d
  obtain ⟨hforth, hforthNeg⟩ := exec_of_jumpTo (i := .jmpf d) (s := s) rfl
  obtain ⟨hback, hbackNeg⟩ := exec_of_jumpTo (i := .jmpb d) (s := s) rfl
  exact ⟨rfl, rfl, hforth, hforthNeg, hback, hbackNeg⟩

/-- Settles O30: JMP's effect is a jump to its target, and JEQ's and JEZ's are branches to theirs. -/
theorem absoluteJumps : Obligations.AbsoluteJumps :=
  fun _ r t => ⟨rfl, rfl, rfl, (exec_of_jumpTo (i := .jmp t) rfl).1 (Int.natCast_nonneg _),
    exec_of_branch (i := .jeq t) rfl, exec_of_branch (i := .jez r t) rfl⟩

/-- Settles O32: the effect is a jump to the register's value. -/
theorem registerJump : Obligations.RegisterJump :=
  fun _ r => ⟨rfl, exec_of_jumpTo (i := .rjmp r) rfl⟩

/-! ### Two updates of SP in a row (spec/43_control.md R202, R204)

They come to one, in the pattern they leave and in what they may do without a fault. -/

theorem wrap32_wrap32_add (v d : Int) : wrap32 ((wrap32 v).toInt + d) = wrap32 (v + d) := by
  simp only [wrap32, BitVec.ofInt_add, BitVec.ofInt_toInt]

/-- A register written with the pattern of `v` holds `v` modulo 2^32. -/
theorem State.int_congr_of_reg_eq {t : State} {r : Reg} {v : Int} (h : t.reg r = wrap32 v) :
    (4294967296 : Int) ∣ t.int r - v := by
  rw [State.int, h]
  exact wrap32_toInt_congr v

section
variable {t : State} {v d : Int}

theorem State.overflow_of_not_fits (h : ¬t.fits v) : t.params.overflow = .fault := by
  cases ho : t.params.overflow with
  | wrap => exact absurd (.inr ho) h
  | fault => rfl

theorem State.fits_wrap32_add (h : t.fits v) : t.fits ((wrap32 v).toInt + d) ↔ t.fits (v + d) := by
  obtain hv | hw := h
  · rw [wrap32_toInt_of_inI32 hv]
  · exact ⟨fun _ => .inr hw, fun _ => .inr hw⟩

/-- Where only the second update does not fit, the first did not wrap. -/
theorem State.wrap32_add_of_not_fits (h : t.fits v) (hd : ¬t.fits (v + d)) : (wrap32 v).toInt + d = v + d := by
  obtain hv | hw := h
  · rw [wrap32_toInt_of_inI32 hv]
  · exact absurd (.inr hw) hd

end

/-! ### Pushes (spec/43_control.md R202) -/

/-- The state a push of `v` leaves. -/
def State.pushed (v : Word) (t : State) : State :=
  { t with stack := t.stack.append (wordBytes v) }.setReg spReg (wrap32 (t.int spReg + 4))

section
variable {t u : State} {v w : Word} {r : Reg}

@[simp] theorem State.pushed_size : (t.pushed v).stack.size = t.stack.size + 4 := Memory.append_size _ _

@[simp] theorem State.pushed_int_sp : (t.pushed v).int spReg = (wrap32 (t.int spReg + 4)).toInt :=
  State.setReg_int_same _ _ _

theorem State.pushed_reg_other (h : r ≠ spReg) : (t.pushed v).reg r = t.reg r := State.setReg_reg_other _ _ h

theorem State.pushed_pushed_reg_sp : ((t.pushed v).pushed w).reg spReg = wrap32 (t.int spReg + 8) :=
  calc ((t.pushed v).pushed w).reg spReg
    _ = wrap32 ((t.pushed v).int spReg + 4) := State.setReg_reg_same _ _ _
    _ = wrap32 (t.int spReg + 4 + 4) := by rw [State.pushed_int_sp, wrap32_wrap32_add]
    _ = wrap32 (t.int spReg + 8) := by rw [add_assoc]; rfl

theorem State.pushed_pushed_reg_other (h : r ≠ spReg) : ((t.pushed v).pushed w).reg r = t.reg r :=
  (State.pushed_reg_other h).trans (State.pushed_reg_other h)

theorem pushAndMove_ok_iff :
    pushAndMove v t = .ok u ↔
      t.stack.size + 4 ≤ t.params.memLimit ∧ t.fits (t.int spReg + 4) ∧ u = t.pushed v :=
  ⟨pushAndMove_ok, fun ⟨hsize, hsp, hu⟩ => hu ▸ pushAndMove_within hsize hsp⟩

theorem pushAndMove_unfit (hsize : t.stack.size + 4 ≤ t.params.memLimit) (h : ¬t.fits (t.int spReg + 4)) :
    pushAndMove v t = .error (.arithmeticOverflow (t.int spReg + 4)) :=
  pushAndMove_sp_past hsize (mt .inl h) (State.overflow_of_not_fits h)

/-! The second of two pushes, in terms of the state before the first. -/

theorem State.pushed_fits (h : t.fits (t.int spReg + 4)) :
    (t.pushed v).fits ((t.pushed v).int spReg + 4) ↔ t.fits (t.int spReg + 8) := by
  rw [State.pushed_int_sp]
  refine (State.fits_wrap32_add h).trans ?_
  rw [add_assoc]
  rfl

theorem pushAndMove_pushed_stack_past (h : t.params.memLimit < t.stack.size + 8) :
    pushAndMove w (t.pushed v) = .error (.resourceExhausted .stack (t.stack.size + 8)) := by
  have hpush := pushAndMove_stack_past (s := t.pushed v) (v := w) (by rwa [State.pushed_size])
  rwa [State.pushed_size] at hpush

theorem pushAndMove_pushed_unfit (hsize : t.stack.size + 8 ≤ t.params.memLimit) (hsp : t.fits (t.int spReg + 4))
    (h : ¬t.fits (t.int spReg + 8)) :
    pushAndMove w (t.pushed v) = .error (.arithmeticOverflow (t.int spReg + 8)) := by
  have hsum : t.int spReg + 4 + 4 = t.int spReg + 8 := add_assoc _ _ _
  rw [pushAndMove_unfit (by rwa [State.pushed_size]) (mt (State.pushed_fits hsp).1 h), State.pushed_int_sp,
    State.wrap32_add_of_not_fits hsp (by rwa [hsum]), hsum]

end

/-! ### The effect of CALL (spec/43_control.md R202) -/

/-- The state CALL's effect leaves. -/
def State.called (a : Half) (t : State) : State :=
  let u := (t.pushed (wrap32 t.pc)).pushed (t.reg bpReg)
  { u with pc := a.toNat }.setReg bpReg (u.reg spReg)

section
variable {a : Half} {t u : State} {f : Fault}

theorem State.called_toBytes (h : t.stack.wf) :
    (t.called a).stack.toBytes = t.stack.toBytes ++ wordBytes (wrap32 t.pc) ++ wordBytes (t.reg bpReg) := by
  rw [← Memory.toBytes_append h, ← Memory.toBytes_append (Memory.append_wf h _)]
  rfl

@[simp] theorem State.called_reg_sp : (t.called a).reg spReg = wrap32 (t.int spReg + 8) :=
  (State.setReg_reg_other _ _ (by decide)).trans State.pushed_pushed_reg_sp

theorem State.called_reg_bp : (t.called a).reg bpReg = (t.called a).reg spReg :=
  (State.setReg_reg_same _ _ _).trans (State.pushed_pushed_reg_sp.trans State.called_reg_sp.symm)

theorem State.called_reg_other {r : Reg} (hsp : r ≠ spReg) (hbp : r ≠ bpReg) : (t.called a).reg r = t.reg r :=
  (State.setReg_reg_other _ _ hbp).trans (State.pushed_pushed_reg_other hsp)

theorem callEffect_pc_past (h : 2147483647 < t.pc) : callEffect a t = .error (.pcOutOfRange t.pc) := if_pos h

theorem ok_bind {ε α β : Type} (a : α) (f : α → Except ε β) : (.ok a : Except ε α) >>= f = f a := rfl

section
variable (hpc : t.pc ≤ 2147483647)
include hpc

/-- CALL is two pushes and what cannot fail: the jump to a 16-bit target and the update of BP. -/
theorem callEffect_eq :
    callEffect a t = pushAndMove (wrap32 t.pc) t >>= fun u => pushAndMove (t.reg bpReg) u >>= fun v =>
      .ok ({ v with pc := a.toNat }.setReg bpReg (v.reg spReg)) := by
  rw [callEffect, if_neg (Nat.not_lt.2 hpc)]
  simp only [targetOf, jumpTo_nat]
  rfl

theorem callEffect_of_first_error (h : pushAndMove (wrap32 t.pc) t = .error f) : callEffect a t = .error f := by
  rw [callEffect_eq hpc, h]
  rfl

theorem callEffect_of_second_error (hsize : t.stack.size + 4 ≤ t.params.memLimit) (hsp : t.fits (t.int spReg + 4))
    (h : pushAndMove (t.reg bpReg) (t.pushed (wrap32 t.pc)) = .error f) : callEffect a t = .error f := by
  rw [callEffect_eq hpc, pushAndMove_ok_iff.2 ⟨hsize, hsp, rfl⟩, ok_bind, h]
  rfl

end

/-- CALL's effect answers a state exactly within its bounds. -/
theorem callEffect_ok_iff :
    callEffect a t = .ok u ↔
      t.pc ≤ 2147483647 ∧ t.stack.size + 8 ≤ t.params.memLimit ∧ t.fits (t.int spReg + 4) ∧
        t.fits (t.int spReg + 8) ∧ u = t.called a := by
  constructor
  · intro h
    obtain ⟨hpc, u₁, u₂, h₁, h₂, rfl⟩ := callEffect_ok h
    obtain ⟨-, hsp, rfl⟩ := pushAndMove_ok_iff.1 h₁
    obtain ⟨hsize, hsp₂, rfl⟩ := pushAndMove_ok_iff.1 h₂
    rw [State.pushed_size] at hsize
    exact ⟨hpc, hsize, hsp, (State.pushed_fits hsp).1 hsp₂, rfl⟩
  · rintro ⟨hpc, hsize, hsp, hsp₂, rfl⟩
    have hpush : pushAndMove (t.reg bpReg) (t.pushed (wrap32 t.pc)) = .ok _ :=
      pushAndMove_ok_iff.2 ⟨by rwa [State.pushed_size], (State.pushed_fits hsp).2 hsp₂, rfl⟩
    rw [callEffect_eq hpc, pushAndMove_ok_iff.2 ⟨by omega, hsp, rfl⟩, ok_bind, hpush]
    rfl

end

/-- Settles O33: the two pushes one after the other, each with its two faults, after the check of the pc. -/
theorem callResult : Obligations.CallResult := by
  intro s a hwf
  refine ⟨rfl, fun hpc hsize hsp hsp₂ => ?_, fun hpc => ?_, fun hpc hsize => ?_, fun hpc hsize hsp => ?_,
    fun hpc hsize hsp hsize₂ => ?_, fun hpc hsize hsp hsp₂ => ?_⟩
  · refine ⟨_, exec_ok (callEffect_ok_iff.2 ⟨hpc, hsize, hsp, hsp₂, rfl⟩), rfl, ⟨wrap32 (s.pc + 3), ?_, ?_⟩,
      State.int_congr_of_reg_eq State.called_reg_sp, State.called_reg_bp, fun _ => State.called_reg_other, rfl⟩
    · exact wrap32_toInt_of_inI32 (by omega)
    · exact State.called_toBytes hwf
  · exact exec_error (callEffect_pc_past hpc)
  · exact exec_error (callEffect_of_first_error hpc (pushAndMove_stack_past hsize))
  · exact exec_error (callEffect_of_first_error hpc (pushAndMove_unfit hsize hsp))
  · exact exec_error (callEffect_of_second_error hpc hsize hsp (pushAndMove_pushed_stack_past hsize₂))
  · have hsize₁ : s.stack.size + 4 ≤ s.params.memLimit := by omega
    exact exec_error (callEffect_of_second_error hpc hsize₁ hsp (pushAndMove_pushed_unfit hsize hsp hsp₂))

/-! ### Pops (spec/43_control.md R204) -/

/-- The state a pop leaves. -/
def State.popped (t : State) : State :=
  { t with stack := (popWord t.stack).2 }.setReg spReg (wrap32 (t.int spReg - 4))

/-- The state after the first pop of RET, whose word goes to BP. -/
def State.poppedBp (t : State) : State := t.popped.setReg bpReg (popWord t.stack).1

section
variable {t : State} {r : Reg}

theorem popAndMove_fit (h : t.fits (t.int spReg - 4)) : popAndMove t = .ok ((popWord t.stack).1, t.popped) :=
  popAndMove_within h

theorem popAndMove_unfit (h : ¬t.fits (t.int spReg - 4)) :
    popAndMove t = .error (.arithmeticOverflow (t.int spReg - 4)) :=
  popAndMove_past (mt .inl h) (State.overflow_of_not_fits h)

@[simp] theorem State.poppedBp_int_sp : t.poppedBp.int spReg = (wrap32 (t.int spReg - 4)).toInt :=
  (State.setReg_int_other _ _ (by decide)).trans (State.setReg_int_same _ _ _)

theorem State.poppedBp_fits (h : t.fits (t.int spReg - 4)) :
    t.poppedBp.fits (t.poppedBp.int spReg - 4) ↔ t.fits (t.int spReg - 8) := by
  rw [State.poppedBp_int_sp]
  refine (State.fits_wrap32_add h).trans ?_
  rw [sub_add]
  rfl

/-- The second pop of RET, in terms of the state before the first. -/
theorem popAndMove_poppedBp_unfit (hsp : t.fits (t.int spReg - 4)) (h : ¬t.fits (t.int spReg - 8)) :
    popAndMove t.poppedBp = .error (.arithmeticOverflow (t.int spReg - 8)) := by
  have hsum : t.int spReg - 4 + -4 = t.int spReg - 8 := by omega
  rw [popAndMove_unfit (mt (State.poppedBp_fits hsp).1 h), State.poppedBp_int_sp, sub_eq_add_neg _ 4,
    State.wrap32_add_of_not_fits hsp (by rwa [hsum]), hsum]

theorem State.poppedBp_popped_reg_sp : t.poppedBp.popped.reg spReg = wrap32 (t.int spReg - 8) :=
  calc t.poppedBp.popped.reg spReg
    _ = wrap32 (t.poppedBp.int spReg + -4) := State.setReg_reg_same _ _ _
    _ = wrap32 (t.int spReg - 4 + -4) := by rw [State.poppedBp_int_sp, wrap32_wrap32_add]
    _ = wrap32 (t.int spReg - 8) := congrArg wrap32 (by omega)

theorem State.poppedBp_popped_reg_bp : t.poppedBp.popped.reg bpReg = (popWord t.stack).1 :=
  (State.setReg_reg_other _ _ (by decide)).trans (State.setReg_reg_same _ _ _)

theorem State.poppedBp_popped_reg_other (hsp : r ≠ spReg) (hbp : r ≠ bpReg) : t.poppedBp.popped.reg r = t.reg r :=
  calc t.poppedBp.popped.reg r
    _ = t.poppedBp.reg r := State.setReg_reg_other _ _ hsp
    _ = t.popped.reg r := State.setReg_reg_other _ _ hbp
    _ = t.reg r := State.setReg_reg_other _ _ hsp

end

/-! ### The effect of RET (spec/43_control.md R204) -/

section
variable {t : State}

theorem retEffect_first_unfit (h : ¬t.fits (t.int spReg - 4)) :
    retEffect t = .error (.arithmeticOverflow (t.int spReg - 4)) := by
  rw [retEffect, popAndMove_unfit h]
  rfl

section
variable (hsp : t.fits (t.int spReg - 4))
include hsp

theorem retEffect_of_first_pop :
    retEffect t = popAndMove t.poppedBp >>= fun (r, u) => jumpTo r.toInt u := by
  rw [retEffect, popAndMove_fit hsp]
  rfl

theorem retEffect_second_unfit (h : ¬t.fits (t.int spReg - 8)) :
    retEffect t = .error (.arithmeticOverflow (t.int spReg - 8)) := by
  rw [retEffect_of_first_pop hsp, popAndMove_poppedBp_unfit hsp h]
  rfl

/-- After its two pops RET is a jump to the second word popped. -/
theorem retEffect_of_pops (h : t.fits (t.int spReg - 8)) :
    retEffect t = jumpTo (popWord (popWord t.stack).2).1.toInt t.poppedBp.popped := by
  rw [retEffect_of_first_pop hsp, popAndMove_fit ((State.poppedBp_fits hsp).2 h)]
  rfl

end
end

/-! ### The stacks a RET pops its frame from (spec/20_memory.md R64) -/

theorem popWord_of_short_toBytes {st : Memory} {base : List Byte} (h : st.toBytes = base) (hl : base.length < 4) :
    popWord st = (0#32, st) :=
  popWord_short (by rwa [← st.toBytes_length, h])

/-- Two pops from a whole frame, from one word and from none: a pop from fewer than 4 bytes gives 0. -/
theorem popWord_popWord {st : Memory} {base : List Byte} {r bp : Word}
    (h : st.toBytes = base ++ wordBytes r ++ wordBytes bp ∨
      (st.toBytes = base ++ wordBytes bp ∧ base.length < 4 ∧ r = 0#32) ∨
      (st.toBytes = base ∧ base.length < 4 ∧ r = 0#32 ∧ bp = 0#32)) :
    (popWord st).1 = bp ∧ (popWord (popWord st).2).1 = r ∧ (popWord (popWord st).2).2.toBytes = base := by
  obtain hframe | ⟨hword, hl, rfl⟩ | ⟨hshort, hl, rfl, rfl⟩ := h
  · obtain ⟨hbp, hst⟩ := popWord_of_toBytes hframe
    exact ⟨hbp, popWord_of_toBytes hst⟩
  · obtain ⟨hbp, hst⟩ := popWord_of_toBytes hword
    rw [popWord_of_short_toBytes hst hl]
    exact ⟨hbp, rfl, hst⟩
  · rw [popWord_of_short_toBytes hshort hl, popWord_of_short_toBytes hshort hl]
    exact ⟨rfl, rfl, hshort⟩

/-- A RET whose SP updates fit, by the sign of the return address it pops. -/
theorem exec_ret_of_fits {s : State} (h₁ : s.fits (s.int spReg - 4)) (h₂ : s.fits (s.int spReg - 8)) :
    (0 ≤ (popWord (popWord s.stack).2).1.toInt →
      exec .ret s = .next { s.poppedBp.popped with pc := (popWord (popWord s.stack).2).1.toInt.toNat }) ∧
    ((popWord (popWord s.stack).2).1.toInt < 0 →
      exec .ret s = .next (s.raise (.pcOutOfRange (popWord (popWord s.stack).2).1.toInt))) :=
  exec_of_jumpTo (retEffect_of_pops (t := s.advance 1) h₁ h₂)

/-- Settles O34: the two pops, each with its fault, and then the jump, for the three stacks. -/
theorem retResult : Obligations.RetResult := by
  refine ⟨rfl, fun s base r bp h₁ h₂ h => ?_, fun s => ⟨fun h₁ => ?_, fun h₁ h₂ => ?_, fun h₁ h₂ base r bp h hr => ?_⟩⟩
  · have hr : 0 ≤ r.toInt := by
      obtain ⟨-, hr⟩ | ⟨-, -, rfl⟩ | ⟨-, -, rfl, -⟩ := h
      · exact hr
      · decide
      · decide
    obtain ⟨rfl, rfl, rfl⟩ := popWord_popWord (h.imp_left And.left)
    exact ⟨_, (exec_ret_of_fits h₁ h₂).1 hr, rfl, rfl, State.poppedBp_popped_reg_bp,
      State.int_congr_of_reg_eq State.poppedBp_popped_reg_sp, fun _ => State.poppedBp_popped_reg_other, rfl⟩
  · exact exec_error (retEffect_first_unfit h₁)
  · exact exec_error (retEffect_second_unfit h₁ h₂)
  · obtain ⟨-, rfl, -⟩ := popWord_popWord (.inl h)
    exact (exec_ret_of_fits h₁ h₂).2 hr

/-! ### RET after CALL (spec/43_control.md R203) -/

/-- The bounds that a CALL met which did not fault, and the state it left. -/
theorem exec_call_ok {s t : State} {a : Half} (h : exec (.call a) s = .next t) (hf : t.failed = false) :
    s.pc + 3 ≤ 2147483647 ∧ s.fits (s.int spReg + 4) ∧ s.fits (s.int spReg + 8) ∧ t = (s.advance 3).called a := by
  obtain hok | ⟨f, -, rfl⟩ := exec_cases h
  · obtain ⟨hpc, -, hsp, hsp₂, rfl⟩ := callEffect_ok_iff.1 hok
    exact ⟨hpc, hsp, hsp₂, rfl⟩
  · cases hf

/-- Two pops take off the frame that a CALL appended. -/
theorem popWord_called {t : State} {a : Half} (h : t.stack.wf) :
    (popWord (t.called a).stack).1 = t.reg bpReg ∧
      popWord (popWord (t.called a).stack).2 = (wrap32 t.pc, t.stack) := by
  have hpop : popWord (t.called a).stack = (t.reg bpReg, t.stack.append (wordBytes (wrap32 t.pc))) :=
    popWord_append (Memory.append_wf h _) _
  rw [hpop]
  exact ⟨rfl, popWord_append h _⟩

/-- Settles O35: RET pops the very frame that CALL appended, and its SP updates, from the SP that CALL left, come to
those that CALL made. -/
theorem retUndoesCall : Obligations.RetUndoesCall := by
  intro s t u a _ hwf hcall hf hstack hreg hparams
  obtain ⟨hpc, hsp, hsp₂, rfl⟩ := exec_call_ok hcall hf
  obtain ⟨hbp, hframe⟩ := popWord_called (t := s.advance 3) (a := a) hwf
  rw [← hstack] at hbp hframe
  have hu : u.int spReg = (wrap32 (s.int spReg + 8)).toInt := by
    rw [State.int, hreg, State.called_reg_sp]
    rfl
  have hmove (d : Int) : u.fits (u.int spReg + d) ↔ s.fits (s.int spReg + 8 + d) := by
    rw [State.fits, hparams, hu]
    exact State.fits_wrap32_add hsp₂
  have h₁ : u.fits (u.int spReg - 4) := (hmove (-4)).2 (by rwa [add_assoc])
  have h₂ : u.fits (u.int spReg - 8) := (hmove (-8)).2 (.inl (by rw [add_neg_cancel_right]; exact s.int_inI32 _))
  have hret : (popWord (popWord u.stack).2).1.toInt = s.pc + 3 := by
    rw [hframe]
    exact wrap32_toInt_of_inI32 (by simp only [State.advance_pc]; omega)
  refine ⟨_, (exec_ret_of_fits h₁ h₂).1 (by omega), rfl, ?_, ?_, ?_, ?_⟩
  · exact congrArg Int.toNat hret
  · exact State.poppedBp_popped_reg_bp.trans hbp
  · refine State.poppedBp_popped_reg_sp.trans ?_
    rw [sub_eq_add_neg, hu, wrap32_wrap32_add, add_neg_cancel_right]
    exact wrap32_toInt _
  · exact congrArg Prod.snd hframe

end Sys2Proof.Machine

namespace Sys2Proof.Machine

/-! ### Loads (spec/44_memory_ops.md R221, R223) -/

theorem zext8_toInt (b : Byte) : (zext8 b).toInt = b.toNat := by
  rw [zext8, BitVec.toInt_setWidth, Int.bmod_eq_of_le] <;> omega

/-- An instruction of width 5 whose effect is a bounds-checked read of `n` bytes at `a` (spec/20_memory.md R56) and a
write of what `f` makes of them to `r`. -/
theorem exec_of_memRead {i : Instr} {s : State} {sec : Section} {a : Int} {n : Nat} {r : Reg} {f : List Byte → Word}
    (hw : i.width = 5)
    (he : effectOf i (s.advance 5) =
      memRead (s.advance 5) sec a n >>= fun bs => .ok ((s.advance 5).setReg r (f bs))) :
    (∀ ea : Nat, a = ea → ea + n ≤ (s.buffer sec).size →
      exec i s = .next ((s.advance 5).setReg r (f ((s.buffer sec).readBytes ea n)))) ∧
      (a < 0 ∨ (s.buffer sec).size < a + n →
        exec i s = .next (s.raise (.addressOutOfRange (spaceOf sec) a n))) := by
  rw [← hw] at he ⊢
  refine ⟨fun ea ha hbound => exec_ok ?_, fun hbound => exec_error ?_⟩
  · subst ha
    rw [he, memRead_within (Int.natCast_nonneg ea) (by exact_mod_cast hbound)]
    rfl
  · rw [he, memRead_past (s := s.advance _) hbound]
    rfl

/-- Settles O36: LW's effect is a checked read of four bytes, whose little-endian number is their word's. -/
theorem lwResult : Obligations.LwResult := by
  intro s r ra off sec
  obtain ⟨hread, hpast⟩ := exec_of_memRead (i := .lw r ra off sec) (s := s) rfl rfl
  exact ⟨rfl, fun ea hea hbound => ⟨_, wordOfBytes_toNat _, hread ea hea hbound⟩, hpast⟩

/-- Settles O37: LB's effect is a checked read of one byte, which zero extension keeps as a number. -/
theorem lbResult : Obligations.LbResult := by
  intro s r ra off sec
  obtain ⟨hread, hpast⟩ := exec_of_memRead (i := .lb r ra off sec) (s := s) rfl rfl
  exact ⟨rfl, fun ea hea hbound => ⟨_, zext8_toInt _, hread ea hea hbound⟩, hpast⟩

/-! ### Stores (spec/44_memory_ops.md R222, R224) -/

section
variable {m : Memory} {ea : Nat} {bs : List Byte}

theorem Memory.byte?_stored_inside (h : m.wf) {k : Nat} (hk : k < bs.length) :
    ((m.grow (ea + bs.length)).writeBytes ea bs).byte? (ea + k) = bs[k]? := by
  have hend : ea + k < max m.size (ea + bs.length) := by omega
  rw [Memory.byte?_stored h, if_pos hend, if_pos (by omega), Nat.add_sub_cancel_left,
    List.getD_eq_getElem _ _ hk, List.getElem?_eq_getElem hk]

/-- A store leaves the other bytes, and fills the gap between an old end and its address with zeros. -/
theorem Memory.byte?_stored_outside (h : m.wf) {a : Nat} (ha : a < ea ∨ ea + bs.length ≤ a) :
    ((m.grow (ea + bs.length)).writeBytes ea bs).byte? a =
      if a < m.size then m.byte? a else if a < ea then some 0#8 else none := by
  rw [Memory.byte?_stored h, if_neg (show ¬(ea ≤ a ∧ a < ea + bs.length) by omega)]
  by_cases hold : a < m.size
  · rw [if_pos (lt_max_of_lt_left hold), if_pos hold, Memory.byte?, if_pos hold]
  · rw [if_neg hold, Memory.byte_past_end h (Nat.not_lt.1 hold)]
    by_cases hgap : a < ea
    · rw [if_pos (by omega), if_pos hgap]
    · rw [if_neg (by omega), if_neg hgap]

end

/-- The buffer a write leaves, in both sections: inside the heap's bounds there is nothing to grow. -/
theorem memWrite_buffer {s t : State} {sec : Section} {ea : Nat} {bs : List Byte} (h : memWrite s sec ea bs = .ok t) :
    t.buffer sec = ((s.buffer sec).grow (ea + bs.length)).writeBytes ea bs := by
  obtain ⟨-, ⟨rfl, hbound, rfl⟩ | ⟨rfl, -, rfl⟩⟩ := memWrite_ok h
  · have hgrow : s.heap.hbuf.grow (ea + bs.length) = s.heap.hbuf := Memory.grow_le (by exact_mod_cast hbound)
    exact (congrArg (·.writeBytes ea bs) hgrow).symm
  · rfl

/-- What a write leaves unchanged: the other section, the block list, and every part but the two memories. -/
theorem memWrite_rest {s t : State} {sec : Section} {a : Int} {bs : List Byte} (h : memWrite s sec a bs = .ok t) :
    (∀ other, other ≠ sec → t.buffer other = s.buffer other) ∧ t.heap.blocks = s.heap.blocks ∧
      t = { s with stack := t.stack, heap := t.heap } := by
  obtain ⟨-, ⟨rfl, -, rfl⟩ | ⟨rfl, -, rfl⟩⟩ := memWrite_ok h
  · refine ⟨fun other hne => ?_, rfl, rfl⟩
    cases other with
    | stack => rfl
    | heap => exact absurd rfl hne
  · refine ⟨fun other hne => ?_, rfl, rfl⟩
    cases other with
    | stack => exact absurd rfl hne
    | heap => rfl

theorem storedAt_of_memWrite {s t : State} {sec : Section} {ea : Nat} {bs : List Byte} (hwf : (s.buffer sec).wf)
    (h : memWrite (s.advance 5) sec ea bs = .ok t) : storedAt s t sec ea bs := by
  obtain ⟨hother, hblocks, hrest⟩ := memWrite_rest h
  rw [storedAt, memWrite_buffer h]
  exact ⟨fun k => Memory.byte?_stored_inside hwf, fun a => Memory.byte?_stored_outside hwf, hother, hblocks, hrest⟩

theorem memWrite_within {s : State} {sec : Section} {ea : Nat} {bs : List Byte}
    (hheap : sec = .heap → ea + bs.length ≤ s.heap.hbuf.size)
    (hstack : sec = .stack → ea + bs.length ≤ s.stack.size ∨ ea + bs.length ≤ s.params.memLimit) :
    ∃ t, memWrite s sec ea bs = .ok t := by
  cases sec with
  | heap => exact ⟨_, memWrite_heap_within (Int.natCast_nonneg ea) (by exact_mod_cast hheap rfl)⟩
  | stack => exact ⟨_, memWrite_stack_within (Int.natCast_nonneg ea) (hstack rfl)⟩

/-- An instruction of width 5 whose effect is a write of `n` bytes at `a` (spec/20_memory.md R57): it stores them, or
takes one of the three faults. -/
theorem exec_of_memWrite {i : Instr} {s : State} {sec : Section} {a : Int} {bs : List Byte} {n : Nat}
    (hw : i.width = 5) (hn : bs.length = n) (he : effectOf i (s.advance 5) = memWrite (s.advance 5) sec a bs)
    (hwf : (s.buffer sec).wf) :
    (∀ ea : Nat, a = ea → (sec = .heap → ea + n ≤ s.heap.hbuf.size) →
      (sec = .stack → ea + n ≤ s.stack.size ∨ ea + n ≤ s.params.memLimit) →
      ∃ t, exec i s = .next t ∧ storedAt s t sec ea bs) ∧
    (a < 0 → exec i s = .next (s.raise (.addressOutOfRange (spaceOf sec) a n))) ∧
    (sec = .heap → 0 ≤ a → (s.heap.hbuf.size : Int) < a + n →
      exec i s = .next (s.raise (.addressOutOfRange .heap a n))) ∧
    ∀ ea : Nat, sec = .stack → a = ea → s.stack.size < ea + n → s.params.memLimit < ea + n →
      exec i s = .next (s.raise (.resourceExhausted .stack (ea + n))) := by
  have hok {t : State} (h : memWrite (s.advance 5) sec a bs = .ok t) : exec i s = .next t :=
    exec_ok (by rw [hw, he, h])
  have herror {f : Fault} (h : memWrite (s.advance 5) sec a bs = .error f) : exec i s = .next (s.raise f) :=
    exec_error (by rw [hw, he, h])
  subst hn
  refine ⟨fun ea ha hheap hstack => ?_, fun hneg => ?_, fun hsec h0 hpast => ?_, fun ea hsec ha hsize hlimit => ?_⟩
  · obtain ⟨t, ht⟩ := memWrite_within (s := s.advance 5) hheap hstack
    exact ⟨t, hok (by rwa [ha]), storedAt_of_memWrite hwf ht⟩
  · exact herror (memWrite_negative hneg)
  · subst hsec
    exact herror (memWrite_heap_past h0 hpast)
  · subst hsec ha
    exact herror (memWrite_stack_past (Int.natCast_nonneg ea) hsize hlimit)

/-- Settles O38: SW's effect is a write of the register's four bytes. -/
theorem swResult : Obligations.SwResult :=
  fun _ _ _ _ _ hwf => ⟨rfl, exec_of_memWrite rfl rfl rfl hwf⟩

/-- Settles O39: SB's effect is a write of the register's low byte, which is its value modulo 256. -/
theorem sbResult : Obligations.SbResult :=
  fun _ _ _ _ _ hwf => ⟨rfl, exec_of_memWrite rfl rfl rfl hwf⟩

/-! ### Push and pop (spec/44_memory_ops.md R232 to R234) -/

/-- Settles O41: PUSH's effect is one push, with its two faults in order. -/
theorem pushResult : Obligations.PushResult := by
  refine fun s r hwf => ⟨rfl, fun hsize hsp => ?_, fun hsize => ?_, fun hsize hsp => ?_⟩
  · exact ⟨_, exec_ok (pushAndMove_ok_iff.2 ⟨hsize, hsp, rfl⟩), Memory.toBytes_append hwf _,
      State.int_congr_of_reg_eq (State.setReg_reg_same _ _ _), fun _ => State.pushed_reg_other, rfl⟩
  · exact exec_error (pushAndMove_stack_past hsize)
  · exact exec_error (pushAndMove_unfit hsize hsp)

/-- A pop from a whole word, and from fewer than 4 bytes, where it gives 0 (spec/20_memory.md R64). -/
theorem popWord_of_word_or_short {st : Memory} {base : List Byte} {v : Word}
    (h : st.toBytes = base ++ wordBytes v ∨ (st.toBytes = base ∧ base.length < 4 ∧ v = 0#32)) :
    (popWord st).1 = v ∧ (popWord st).2.toBytes = base := by
  obtain hword | ⟨hshort, hl, rfl⟩ := h
  · exact popWord_of_toBytes hword
  · rw [popWord_of_short_toBytes hshort hl]
    exact ⟨rfl, hshort⟩

section
variable {t : State} {r : Reg}

theorem popEffect_fit (h : t.fits (t.int spReg - 4)) :
    effectOf (.pop r) t = .ok (t.popped.setReg r (popWord t.stack).1) := by
  rw [effectOf, popAndMove_fit h]
  rfl

theorem popEffect_unfit (h : ¬t.fits (t.int spReg - 4)) :
    effectOf (.pop r) t = .error (.arithmeticOverflow (t.int spReg - 4)) := by
  rw [effectOf, popAndMove_unfit h]
  rfl

theorem State.popped_reg_sp : t.popped.reg spReg = wrap32 (t.int spReg - 4) := State.setReg_reg_same _ _ _

theorem State.popped_reg_other (h : r ≠ spReg) : t.popped.reg r = t.reg r := State.setReg_reg_other _ _ h

end

/-- Settles O42: SP moves, then the word popped is written, over SP too where SP is the destination. -/
theorem popResult : Obligations.PopResult := by
  refine fun s r => ⟨rfl, fun base v hsp hstack => ?_, fun hsp => exec_error (popEffect_unfit hsp)⟩
  obtain ⟨rfl, rfl⟩ := popWord_of_word_or_short hstack
  refine ⟨_, exec_ok (popEffect_fit hsp), State.setReg_reg_same _ _ _, rfl, fun hr => ?_, fun q hq hqr => ?_, rfl⟩
  · exact State.int_congr_of_reg_eq ((State.setReg_reg_other _ _ hr.symm).trans State.popped_reg_sp)
  · exact (State.setReg_reg_other _ _ hqr).trans (State.popped_reg_other hq)

end Sys2Proof.Machine

namespace Sys2Proof.Machine

/-! ### Bitwise operations (spec/45_bitwise.md R250 to R256)

No effect of this family can fail: each instruction writes one pattern over the advanced state. -/

section
variable (s : State) (ra rb : Reg)

theorem exec_not : exec (.not ra) s = .next ((s.advance 2).setReg ra (~~~s.reg ra)) := exec_ok rfl

theorem exec_shiftl :
    exec (.shiftl ra rb) s = .next ((s.advance 3).setReg ra (shiftLeft (s.reg ra) (s.reg rb).toNat)) := exec_ok rfl

theorem exec_shiftr :
    exec (.shiftr ra rb) s =
      .next ((s.advance 3).setReg ra (shiftRight s.params.shiftr (s.reg ra) (s.reg rb).toNat)) := exec_ok rfl

theorem exec_and : exec (.and ra rb) s = .next ((s.advance 3).setReg ra (s.reg ra &&& s.reg rb)) := exec_ok rfl

theorem exec_or : exec (.or ra rb) s = .next ((s.advance 3).setReg ra (s.reg ra ||| s.reg rb)) := exec_ok rfl

end

/-- The complement in two's complement, which the library states by the unsigned value (R251). -/
theorem not_toInt (a : Word) : (~~~a).toInt = -a.toInt - 1 := by
  have ha := a.isLt
  rw [BitVec.toInt_eq_toNat_cond, BitVec.toInt_eq_toNat_cond, BitVec.toNat_not]
  split <;> split <;> omega

/-- Settles O44: the complement's signed value is one less than the negation's. -/
theorem notResult : Obligations.NotResult :=
  fun s r => ⟨rfl, _, not_toInt (s.reg r), exec_not s r⟩

/-! #### Shifts by an unmasked amount (R252) -/

section
variable {a : Word} {k : ShiftKind} {n : Nat}

theorem shiftLeft_toNat : (shiftLeft a n).toNat = if 32 ≤ n then 0 else a.toNat * 2 ^ n % 4294967296 := by
  unfold shiftLeft
  split
  · rfl
  · rw [BitVec.toNat_shiftLeft, Nat.shiftLeft_eq]

theorem shiftRight_past (h : 32 ≤ n) : shiftRight k a n = 0#32 := if_pos h

/-- An arithmetic shift rounds toward minus infinity. -/
theorem shiftRight_arithmetic_toInt (h : n < 32) :
    (shiftRight .arithmetic a n).toInt = Int.fdiv a.toInt (2 ^ n) := by
  rw [shiftRight, if_neg (Nat.not_le.2 h), BitVec.toInt_sshiftRight, Int.shiftRight_eq_div_pow,
    Int.fdiv_eq_ediv_of_nonneg _ (by positivity), Nat.cast_pow, Nat.cast_ofNat]

theorem shiftRight_logical_toNat (h : n < 32) : (shiftRight .logical a n).toNat = a.toNat / 2 ^ n := by
  rw [shiftRight, if_neg (Nat.not_le.2 h), BitVec.toNat_ushiftRight, Nat.shiftRight_eq_div_pow]

end

/-- Settles O45, by the unsigned value of a left shift. -/
theorem shiftLeftResult : Obligations.ShiftLeftResult :=
  fun s ra rb => ⟨rfl, _, shiftLeft_toNat, exec_shiftl s ra rb⟩

/-- Settles O46, by the cases of a right shift: past the width, arithmetic and logical. -/
theorem shiftRightResult : Obligations.ShiftRightResult := by
  refine fun s ra rb => ⟨rfl, _, fun hpast => ?_, fun hn harith => ?_, fun hn hlog => ?_, exec_shiftr s ra rb⟩
  · rw [shiftRight_past hpast]
    rfl
  · rw [harith]
    exact shiftRight_arithmetic_toInt hn
  · rw [hlog]
    exact shiftRight_logical_toNat hn

/-! #### AND and OR (R255, R256) -/

/-- Settles O47, by the unsigned values of the bitwise and and or. -/
theorem andOrResults : Obligations.AndOrResults :=
  fun s ra rb => ⟨rfl, rfl, _, _, BitVec.toNat_and _ _, BitVec.toNat_or _ _, exec_and s ra rb, exec_or s ra rb⟩

/-- An instruction of width 3 that writes one pattern leaves its bits in the destination, and its frame (R250). -/
theorem exists_next_of_write {i : Instr} {s : State} {r : Reg} {v : Word} {bit : Nat → Bool}
    (hexec : exec i s = .next ((s.advance 3).setReg r v)) (hbits : ∀ k, v.getLsbD k = bit k) :
    ∃ t, exec i s = .next t ∧ t.pc = s.pc + 3 ∧ (∀ k, (t.reg r).getLsbD k = bit k) ∧
      (∀ q, q ≠ r → t.reg q = s.reg q) ∧ t = { s with pc := t.pc, x := t.x } := by
  refine ⟨_, hexec, rfl, fun k => ?_, fun q hq => State.setReg_reg_other _ _ hq, rfl⟩
  rw [State.setReg_reg_same, hbits]

/-- Settles O60: AND and OR write the patterns whose bits are the and and the or. -/
theorem andOrCompleteBitByBit : Obligations.AndOrCompleteBitByBit :=
  fun s ra rb => ⟨exists_next_of_write (exec_and s ra rb) fun _ => BitVec.getLsbD_and,
    exists_next_of_write (exec_or s ra rb) fun _ => BitVec.getLsbD_or⟩

end Sys2Proof.Machine

namespace Sys2Proof.Machine

/-! ### The syscalls Nop and Exit, and a code of no syscall (spec/46_syscall.md R273, R275, R279) -/

/-- Settles O48: the dispatcher on distinct codes, on the state whose pc is advanced past the instruction. -/
theorem nopExitAndUnknownSyscalls : Obligations.NopExitAndUnknownSyscalls := by
  refine ⟨rfl, fun s hd => ?_⟩
  obtain ⟨hnop, -, hexit, -, -, -, hunknown⟩ := syscall_dispatch (t := s.advance 1) hd
  exact ⟨fun hc => exec_ok (hnop hc), fun hc => exec_ok (hexit hc), fun hc => exec_error (hunknown hc)⟩

/-! ### The string scan of the print syscalls (spec/46_syscall.md R272) -/

theorem Memory.byte?_eq_some_iff {m : Memory} {a : Nat} {b : Byte} :
    m.byte? a = some b ↔ a < m.size ∧ m.byte a = b := by
  simp [Memory.byte?]

theorem stringAt_eq_none {m : Memory} {fuel a : Nat} (h : ∀ k < fuel, m.byte (a + k) ≠ 0#8) :
    stringAt m fuel a = none := by
  cases hs : stringAt m fuel a with
  | none => rfl
  | some cs =>
    obtain ⟨hlt, hend, -⟩ := stringAt_some hs
    exact absurd hend (h _ hlt)

/-- The scan finds the bytes before the first NUL. -/
theorem stringAt_eq_some {m : Memory} {str : List Byte} {fuel a : Nat}
    (hbytes : ∀ k < str.length, m.byte? (a + k) = str[k]?) (hnul : ∀ b ∈ str, b ≠ 0#8)
    (hend : m.byte? (a + str.length) = some 0#8) (hfuel : str.length < fuel) :
    stringAt m fuel a = some str := by
  induction str generalizing fuel a with
  | nil =>
    obtain ⟨n, rfl⟩ := Nat.exists_eq_add_one_of_ne_zero (Nat.ne_zero_of_lt hfuel)
    obtain ⟨-, hzero⟩ := Memory.byte?_eq_some_iff.1 hend
    exact if_pos hzero
  | cons b str ih =>
    obtain ⟨n, rfl⟩ := Nat.exists_eq_add_one_of_ne_zero (Nat.ne_zero_of_lt hfuel)
    obtain ⟨-, hhead⟩ := Memory.byte?_eq_some_iff.1 (hbytes 0 (Nat.succ_pos _))
    have htail : stringAt m n (a + 1) = some str := by
      refine ih (fun k hk => ?_) (fun c hc => hnul c (List.mem_cons_of_mem _ hc)) ?_ (Nat.lt_of_succ_lt_succ hfuel)
      · simpa [Nat.add_assoc, Nat.add_comm 1] using hbytes (k + 1) (Nat.succ_lt_succ hk)
      · simpa [Nat.add_assoc, Nat.add_comm 1] using hend
    rw [stringAt, if_neg (hhead ▸ hnul b List.mem_cons_self), htail, ← hhead]
    rfl

section
variable {p : Params} {m : Memory} {sp : Space}

theorem printFrom_outside {o : Int} (h : o < 0 ∨ (m.size : Int) ≤ o) :
    printFrom p m sp o = .error (.addressOutOfRange sp o 1) :=
  if_pos h

variable {o : Nat}

theorem printFrom_unterminated (ho : o < m.size) (h : ∀ a, o ≤ a → m.byte? a ≠ some 0#8) :
    printFrom p m sp o = .error (.unterminatedString sp o) := by
  have hscan : stringAt m (m.size - o) o = none := stringAt_eq_none fun k hk hzero =>
    h (o + k) (Nat.le_add_right o k) (Memory.byte?_eq_some_iff.2 ⟨by omega, hzero⟩)
  rw [printFrom, if_neg (by omega), Int.toNat_natCast, hscan]

theorem printFrom_of_stringAt {str : List Byte} (ho : o < m.size) (hscan : stringAt m (m.size - o) o = some str) :
    printFrom p m sp o =
      if validUtf8 str then .ok (str ++ p.printTerminator) else .error (.invalidUtf8 sp o) := by
  rw [printFrom, if_neg (by omega), Int.toNat_natCast, hscan]

end

/-! ### The print syscalls (spec/46_syscall.md R274, R278) -/

section
variable {s : State} {m : Memory} {sp : Space} (hd : s.params.syscodesDistinct)
  (hc : (s.reg sysReg = s.params.syscodes.cprint ∧ m = s.ro ∧ sp = .readOnly) ∨
    (s.reg sysReg = s.params.syscodes.printString ∧ m = s.heap.hbuf ∧ sp = .heap))
include hd hc

/-- Both print syscalls are one scan and one emission, each of its own buffer. -/
theorem effectOf_sysc_print :
    effectOf .sysc (s.advance 1) =
      printFrom s.params m sp (s.int argReg) >>= fun bs => .ok ((s.advance 1).emit bs) := by
  obtain ⟨-, hcprint, -, -, -, hprintString, -⟩ := syscall_dispatch (t := s.advance 1) hd
  obtain ⟨hcode, rfl, rfl⟩ | ⟨hcode, rfl, rfl⟩ := hc
  · exact hcprint hcode
  · exact hprintString hcode

theorem exec_print_ok {bs : List Byte} (h : printFrom s.params m sp (s.int argReg) = .ok bs) :
    exec .sysc s = .next { s with pc := s.pc + 1, out := s.out ++ bs } :=
  exec_ok ((effectOf_sysc_print hd hc).trans (by rw [h]; rfl))

theorem exec_print_error {f : Fault} (h : printFrom s.params m sp (s.int argReg) = .error f) :
    exec .sysc s = .next (s.raise f) :=
  exec_error ((effectOf_sysc_print hd hc).trans (by rw [h]; rfl))

end

/-- Settles O55: the outcomes of the scan, in its order, each raised or emitted by the syscall. -/
theorem printSyscalls : Obligations.PrintSyscalls := by
  intro s m sp hd hc
  refine ⟨fun hout => exec_print_error hd hc (printFrom_outside hout), fun o hint ho =>
    ⟨fun hnone => exec_print_error hd hc (by rw [hint, printFrom_unterminated ho hnone]),
      fun str hbytes hnul hend => ?_⟩⟩
  have hlast := (Memory.byte?_eq_some_iff.1 hend).1
  have hscan : stringAt m (m.size - o) o = some str := stringAt_eq_some hbytes hnul hend (by omega)
  refine ⟨fun hinvalid => exec_print_error hd hc ?_, fun hvalid => ?_⟩
  · rw [hint, printFrom_of_stringAt ho hscan, hinvalid]
    rfl
  · rw [List.append_assoc]
    exact exec_print_ok hd hc (by rw [hint, printFrom_of_stringAt ho hscan, if_pos hvalid])

/-! ### UTF-8 (spec/46_syscall.md R272, spec/93_implementation_defined.md G1; log entry 7)

A multi-byte sequence is a leading byte and continuation bytes, six bits each. The scan of the model consumes one byte
at a time and the encoder writes whole characters; the classes of sequences relate the two. -/

/-- The `k` continuation bytes of a character, those of its low `6 * k` bits. -/
def continuationBytes : Nat → Nat → List Byte
  | 0, _ => []
  | k + 1, c => BitVec.ofNat 8 (0x80 + c / 64 ^ k % 64) :: continuationBytes k c

/-- The classes of multi-byte sequences: the count of continuation bytes, the count of values a leading byte holds,
and the least character. The leading byte of value `v` is `0x100 - 2 * n + v`. -/
inductive MultiByte : Nat → Nat → Nat → Prop
  | two : MultiByte 1 0x20 0x80
  | three : MultiByte 2 0x10 0x800
  | four : MultiByte 3 0x08 0x10000

theorem isScalar_iff {c : Nat} : isScalar c = true ↔ c < 0xD800 ∨ (0xE000 ≤ c ∧ c ≤ 0x10FFFF) := by
  simp [isScalar]

/-! #### The encoder -/

theorem utf8Encode_ascii {c : Nat} (h : c < 0x80) : utf8Encode c = [BitVec.ofNat 8 c] := if_pos h

theorem utf8Encode_multiByte {k n least c : Nat} (hm : MultiByte k n least) (hleast : least ≤ c)
    (hc : c / 64 ^ k < n) :
    utf8Encode c = BitVec.ofNat 8 (0x100 - 2 * n + c / 64 ^ k) :: continuationBytes k c := by
  cases hm with
  | two => rw [utf8Encode, if_neg (by omega), if_pos (by omega)]; simp [continuationBytes]
  | three => rw [utf8Encode, if_neg (by omega), if_neg (by omega), if_pos (by omega)]; simp [continuationBytes]
  | four => rw [utf8Encode, if_neg (by omega), if_neg (by omega), if_neg (by omega)]; simp [continuationBytes]

/-- Every scalar value is ASCII or belongs to a class. -/
theorem ascii_or_multiByte {c : Nat} (h : isScalar c = true) :
    c < 0x80 ∨ ∃ k n least, MultiByte k n least ∧ least ≤ c ∧ c / 64 ^ k < n := by
  have hmax := isScalar_iff.1 h
  by_cases h1 : c < 0x80
  · exact .inl h1
  by_cases h2 : c < 0x800
  · exact .inr ⟨_, _, _, .two, by omega, by omega⟩
  by_cases h3 : c < 0x10000
  · exact .inr ⟨_, _, _, .three, by omega, by omega⟩
  · exact .inr ⟨_, _, _, .four, by omega, by omega⟩

/-! #### The scan -/

theorem validUtf8_ascii {c : Nat} (h : c < 0x80) (bs : List Byte) :
    validUtf8 (BitVec.ofNat 8 c :: bs) = validUtf8 bs := by
  have hv : (BitVec.ofNat 8 c).toNat = c := Nat.mod_eq_of_lt (by omega)
  rw [validUtf8, utf8Run, hv, if_pos h, validUtf8]

theorem byte_eq_ofNat {b : Byte} {v : Nat} (h : v = b.toNat) : b = BitVec.ofNat 8 v := by
  rw [h, BitVec.ofNat_toNat, BitVec.setWidth_eq]

/-- A byte the scan accepts at the start of a character is ASCII or leads a sequence of a class. -/
theorem ascii_or_leading {b : Byte} {bs : List Byte} (h : validUtf8 (b :: bs) = true) :
    (∃ v, v < 0x80 ∧ b = BitVec.ofNat 8 v) ∨
      ∃ k n least v, MultiByte k n least ∧ v < n ∧ b = BitVec.ofNat 8 (0x100 - 2 * n + v) := by
  rw [validUtf8, utf8Run] at h
  split at h
  · exact .inl ⟨b.toNat, by omega, byte_eq_ofNat rfl⟩
  split at h
  · cases h
  split at h
  · exact .inr ⟨_, _, _, b.toNat - 0xC0, .two, by omega, byte_eq_ofNat (by omega)⟩
  split at h
  · exact .inr ⟨_, _, _, b.toNat - 0xE0, .three, by omega, byte_eq_ofNat (by omega)⟩
  split at h
  · exact .inr ⟨_, _, _, b.toNat - 0xF0, .four, by omega, byte_eq_ofNat (by omega)⟩
  · cases h

/-- The bytes complete a character whose bits so far are `acc`, with `k` continuation bytes due: a scalar value of at
least `least`, and an accepted sequence after it. -/
def Completes (k least acc : Nat) (bs : List Byte) : Prop :=
  ∃ c rest, c / 64 ^ k = acc ∧ least ≤ c ∧ isScalar c = true ∧ bs = continuationBytes k c ++ rest ∧
    validUtf8 rest = true

section
variable {k least acc : Nat} {bs : List Byte}

theorem completes_zero_iff :
    Completes 0 least acc bs ↔ least ≤ acc ∧ isScalar acc = true ∧ validUtf8 bs = true := by
  simp [Completes, continuationBytes]

/-- One continuation byte gives the next six bits. -/
theorem completes_succ_iff :
    Completes (k + 1) least acc bs ↔
      ∃ v bs', v < 64 ∧ bs = BitVec.ofNat 8 (0x80 + v) :: bs' ∧ Completes k least (acc * 64 + v) bs' := by
  constructor
  · rintro ⟨c, rest, rfl, hleast, hscalar, rfl, hrest⟩
    refine ⟨c / 64 ^ k % 64, _, Nat.mod_lt _ (by decide), rfl, c, rest, ?_, hleast, hscalar, rfl, hrest⟩
    rw [Nat.pow_succ, ← Nat.div_div_eq_div_mul, Nat.div_add_mod']
  · rintro ⟨v, -, hv, rfl, c, rest, hc, hleast, hscalar, rfl, hrest⟩
    refine ⟨c, rest, ?_, hleast, hscalar, ?_, hrest⟩
    · rw [Nat.pow_succ, ← Nat.div_div_eq_div_mul, hc]
      omega
    · rw [continuationBytes, hc, Nat.mul_add_mod', Nat.mod_eq_of_lt hv, List.cons_append]

/-- The scan takes a continuation byte where one is due, and judges the character after the last. -/
theorem utf8Run_succ_iff :
    utf8Run (k + 1) least acc bs = true ↔
      ∃ v bs', v < 64 ∧ bs = BitVec.ofNat 8 (0x80 + v) :: bs' ∧
        (if k = 0 then decide (least ≤ acc * 64 + v) && isScalar (acc * 64 + v) && validUtf8 bs'
          else utf8Run k least (acc * 64 + v) bs') = true := by
  cases bs with
  | nil => simp [utf8Run]
  | cons b bs =>
    rw [utf8Run]
    constructor
    · intro h
      split at h
      · exact ⟨b.toNat - 0x80, bs, by omega, congrArg (· :: bs) (byte_eq_ofNat (by omega)), h⟩
      · cases h
    · rintro ⟨v, bs', hv, hb, h⟩
      obtain ⟨rfl, rfl⟩ := List.cons.inj hb
      have hbyte : (BitVec.ofNat 8 (0x80 + v)).toNat = 0x80 + v := Nat.mod_eq_of_lt (by omega)
      rw [hbyte, if_pos (by omega), Nat.add_sub_cancel_left]
      exact h

/-- The scan with continuation bytes due accepts exactly what completes the character. -/
theorem utf8Run_iff_completes : utf8Run (k + 1) least acc bs = true ↔ Completes (k + 1) least acc bs := by
  induction k generalizing acc bs with
  | zero =>
    simp only [utf8Run_succ_iff, completes_succ_iff, completes_zero_iff, if_true, Bool.and_eq_true, decide_eq_true_eq,
      and_assoc]
  | succ k ih =>
    rw [utf8Run_succ_iff, completes_succ_iff]
    simp only [ih, Nat.succ_ne_zero, if_false]

/-- A leading byte starts the scan of its class. -/
theorem validUtf8_multiByte_iff {n v : Nat} (hm : MultiByte k n least) (hv : v < n) :
    validUtf8 (BitVec.ofNat 8 (0x100 - 2 * n + v) :: bs) = true ↔ Completes k least v bs := by
  have hb : (BitVec.ofNat 8 (0x100 - 2 * n + v)).toNat = 0x100 - 2 * n + v :=
    Nat.mod_eq_of_lt (by cases hm <;> omega)
  rw [validUtf8, utf8Run, hb, if_neg (by cases hm <;> omega), if_neg (by cases hm <;> omega)]
  cases hm with
  | two => rw [if_pos (by omega), Nat.add_sub_cancel_left, utf8Run_iff_completes]
  | three => rw [if_neg (by omega), if_pos (by omega), Nat.add_sub_cancel_left, utf8Run_iff_completes]
  | four =>
    rw [if_neg (by omega), if_neg (by omega), if_pos (by omega), Nat.add_sub_cancel_left, utf8Run_iff_completes]

end

/-! #### Characters and sequences of them -/

theorem validUtf8_utf8Encode_append {c : Nat} {rest : List Byte} (hc : isScalar c = true)
    (hrest : validUtf8 rest = true) : validUtf8 (utf8Encode c ++ rest) = true := by
  obtain hascii | ⟨k, n, least, hm, hleast, hlead⟩ := ascii_or_multiByte hc
  · rw [utf8Encode_ascii hascii, List.singleton_append, validUtf8_ascii hascii, hrest]
  · rw [utf8Encode_multiByte hm hleast hlead, List.cons_append, validUtf8_multiByte_iff hm hlead]
    exact ⟨c, rest, rfl, hleast, hc, rfl, hrest⟩

theorem exists_utf8Encode_of_validUtf8_cons {b : Byte} {bs : List Byte} (h : validUtf8 (b :: bs) = true) :
    ∃ c rest, isScalar c = true ∧ b :: bs = utf8Encode c ++ rest ∧ validUtf8 rest = true := by
  obtain ⟨v, hv, rfl⟩ | ⟨k, n, least, v, hm, hv, rfl⟩ := ascii_or_leading h
  · refine ⟨v, bs, isScalar_iff.2 (.inl (by omega)), ?_, (validUtf8_ascii hv bs).symm.trans h⟩
    rw [utf8Encode_ascii hv, List.singleton_append]
  · obtain ⟨c, rest, rfl, hleast, hscalar, rfl, hrest⟩ := (validUtf8_multiByte_iff hm hv).1 h
    exact ⟨c, rest, hscalar, by rw [utf8Encode_multiByte hm hleast hv, List.cons_append], hrest⟩

theorem validUtf8_flatMap_utf8Encode {cs : List Nat} (h : ∀ c ∈ cs, isScalar c = true) :
    validUtf8 (cs.flatMap utf8Encode) = true := by
  induction cs with
  | nil => rfl
  | cons c cs ih =>
    obtain ⟨hc, hcs⟩ := List.forall_mem_cons.1 h
    exact validUtf8_utf8Encode_append hc (ih hcs)

theorem utf8Encode_ne_nil (c : Nat) : utf8Encode c ≠ [] := by
  unfold utf8Encode
  split_ifs <;> exact List.cons_ne_nil _ _

theorem exists_flatMap_utf8Encode_of_validUtf8 {bs : List Byte} (h : validUtf8 bs = true) :
    ∃ cs : List Nat, (∀ c ∈ cs, isScalar c = true) ∧ bs = cs.flatMap utf8Encode := by
  cases bs with
  | nil => exact ⟨[], by simp⟩
  | cons b bs =>
    obtain ⟨c, rest, hc, hbs, hrest⟩ := exists_utf8Encode_of_validUtf8_cons h
    have hlt : rest.length < (b :: bs).length := by
      rw [hbs, List.length_append]
      exact Nat.lt_add_of_pos_left (List.length_pos_of_ne_nil (utf8Encode_ne_nil c))
    obtain ⟨cs, hcs, rfl⟩ := exists_flatMap_utf8Encode_of_validUtf8 hrest
    exact ⟨c :: cs, List.forall_mem_cons.2 ⟨hc, hcs⟩, hbs⟩
termination_by bs.length

/-- Settles O56: the scan takes one encoded character off an accepted sequence, and accepts one put before it. -/
theorem validUtf8IffScalarEncodings : Obligations.ValidUtf8IffScalarEncodings := by
  intro bs
  simp only [← isScalar_iff]
  refine ⟨exists_flatMap_utf8Encode_of_validUtf8, ?_⟩
  rintro ⟨cs, hcs, rfl⟩
  exact validUtf8_flatMap_utf8Encode hcs

end Sys2Proof.Machine

namespace Sys2Proof.Machine

/-! ## Faults (spec/60_exceptions.md R302, R312) -/

theorem exec_answers_next (i : Instr) (s : State) : ∃ t, exec i s = .next t := by
  rw [exec_eq_perform]
  exact perform_answers_next _ _ _

theorem step_answers_next (s : State) : ∃ t, step s = .next t := by
  unfold step
  cases fetch s with
  | settled t => exact ⟨t, rfl⟩
  | run i => exact exec_answers_next i s

/-- Settles O14: a fetch that settles answers its state, and an instruction answers its effect or the fault raised. -/
theorem everyStepAnswersNext : Obligations.EveryStepAnswersNext :=
  ⟨step_answers_next, exec_answers_next⟩

section
variable {s t : State} {f : Fault} {a : Nat}

/-- The fault that a state raised is the one its status shows. -/
theorem State.raise_of_faulted {g : Fault} (hf : (s.raise g).status = .faulted f a) : s.raise g = s.raise f := by
  cases hf
  rfl

/-- The effect of an instruction never writes a faulted status, so the instruction raised it. -/
theorem exec_faulted {i : Instr} (hs : s.status = .running) (h : exec i s = .next t) (hf : t.status = .faulted f a) :
    t = s.raise f := by
  rcases exec_cases h with h | ⟨g, -, rfl⟩
  · rcases effectOf_status h with hu | ⟨-, -, hu⟩ <;> simp [hu, hs] at hf
  · exact State.raise_of_faulted hf

theorem step_faulted (hs : s.status = .running) (h : step s = .next t) (hf : t.status = .faulted f a) :
    t = s.raise f := by
  obtain ⟨hn, -⟩ | ⟨-, ⟨-, rfl⟩ | ⟨-, rfl⟩ | ⟨-, e, -, rfl⟩ | ⟨-, i, rest, -, hx⟩⟩ := step_cases h
  · exact absurd hs hn
  · cases hf
  · exact State.raise_of_faulted hf
  · exact State.raise_of_faulted hf
  · exact exec_faulted hs hx hf

end

theorem runFor_of_terminal {t : State} (h : t.status ≠ .running) (k : Nat) : runFor (k + 1) t = some t := by
  rw [runFor, (terminalStatusStays t h).2]

/-- Settles O15: the faulted state is the one raised, and no step leaves its status. -/
theorem faultIsPreciseAndFinal : Obligations.FaultIsPreciseAndFinal := by
  intro s t f a hs h hf
  have ht : t.status ≠ .running := by simp [hf]
  exact ⟨step_faulted hs h hf, by rw [runOnce_of_next h, decide_eq_false ht], runFor_of_terminal ht⟩

end Sys2Proof.Machine

namespace Sys2Proof.Machine

/-! ## The loader (spec/70_reset_and_hazards.md R342 to R345) -/

/-! ### The checks and the state they leave (R343, R344) -/

section
variable {img : List Byte} {s : State}

/-- The only two outcomes of a load: an error with the state kept, or the image installed. -/
theorem loadBytecode_cases (img : List Byte) (s : State) :
    (∃ e, loadBytecode img s = (s, .error e)) ∨ loadBytecode img s = (installImage s.params img, .ok ()) := by
  unfold loadBytecode
  split_ifs
  · exact .inl ⟨_, rfl⟩
  · exact .inl ⟨_, rfl⟩
  · exact .inl ⟨_, rfl⟩
  · exact .inr rfl

theorem loadBytecode_truncatedHeader (hlen : img.length < headerLength) :
    loadBytecode img s = (s, .error .truncatedHeader) := if_pos hlen

theorem loadBytecode_badMagic (hlen : headerLength ≤ img.length) (hmagic : img.take 4 ≠ s.params.magic.toList) :
    loadBytecode img s = (s, .error .badMagic) := by
  rw [loadBytecode, if_neg (Nat.not_lt.2 hlen), if_pos hmagic]

theorem loadBytecode_roBlockOverrun (hlen : headerLength ≤ img.length)
    (hmagic : img.take 4 = s.params.magic.toList) (hro : img.length < headerLength + roBlockLength img) :
    loadBytecode img s = (s, .error .roBlockOverrun) := by
  rw [loadBytecode, if_neg (Nat.not_lt.2 hlen), if_neg (not_not.2 hmagic), if_pos hro]

end

/-! ### The invariant -/

theorem installImage_inv {p : Params} (hp : p.WellFormed) (img : List Byte) : (installImage p img).Inv :=
  { initial_inv hp with
    progCanonical := Memory.ofBytes_wf _
    roCanonical := Memory.ofBytes_wf _ }

/-- Settles O4: an error keeps the state, and the installed one is the initial state with canonical bytes. -/
theorem loadKeepsInvariant : Obligations.LoadKeepsInvariant := by
  intro img s hs
  obtain ⟨e, h⟩ | h := loadBytecode_cases img s
  · rwa [h]
  · rw [h]
    exact installImage_inv hs.paramsAllowed img

/-! ### Images given by their parts (spec/30_encoding.md R106) -/

theorem take_four_header (magic : Vector Byte 4) (lenBytes rest : List Byte) :
    (magic.toList ++ lenBytes ++ rest).take 4 = magic.toList := by
  rw [List.append_assoc, List.take_left' (by simp)]

/-- Settles O57: the magic bytes pass the second check, and the length bytes decide the third. -/
theorem loaderChecksInOrder : Obligations.LoaderChecksInOrder := by
  refine fun img s => ⟨loadBytecode_truncatedHeader, loadBytecode_badMagic, fun b0 b1 b2 b3 tail hlen himg => ?_⟩
  have hmagic : img.take 4 = s.params.magic.toList := himg ▸ take_four_header _ _ tail
  have hro : roBlockLength img = le32 b0 b1 b2 b3 := himg ▸ roBlockLength_header s.params.magic b0 b1 b2 b3 tail
  rw [← hro]
  exact ⟨loadBytecode_roBlockOverrun hlen hmagic, loadBytecode_of_checks hmagic⟩

theorem installImage_parts {p : Params} {header ro prog : List Byte} (hheader : header.length = headerLength)
    (hro : ro.length = roBlockLength (header ++ ro ++ prog)) :
    installImage p (header ++ ro ++ prog) =
      { State.initial p with ro := Memory.ofBytes ro, prog := Memory.ofBytes prog } := by
  have hprog : (header ++ ro ++ prog).drop (headerLength + ro.length) = prog := List.drop_left' (by simp [hheader])
  rw [installImage, ← hro, hprog, List.append_assoc, List.drop_left' hheader, List.take_left]

/-- Settles O58: the parts' lengths pass the loader's checks, and what it installs is cut at those lengths. -/
theorem loaderInstallsImage : Obligations.LoaderInstallsImage := by
  rintro img s b0 b1 b2 b3 pad ro prog rfl hpad hlen
  have hmagic := take_four_header s.params.magic [b0, b1, b2, b3] (pad ++ ro ++ prog)
  have hro := roBlockLength_header s.params.magic b0 b1 b2 b3 (pad ++ ro ++ prog)
  simp only [← List.append_assoc] at hmagic hro
  have hheader : (s.params.magic.toList ++ [b0, b1, b2, b3] ++ pad).length = headerLength := by
    simp [hpad, headerLength]
  have hfits : headerLength + ro.length ≤
      (s.params.magic.toList ++ [b0, b1, b2, b3] ++ pad ++ ro ++ prog).length := by
    rw [List.length_append, List.length_append, hheader]
    exact Nat.le_add_right _ _
  rw [← hro] at hlen
  rw [loadBytecode_of_checks hmagic (hlen ▸ hfits), installImage_parts hheader hlen]
  exact ⟨_, rfl, Memory.toBytes_ofBytes ro, Memory.toBytes_ofBytes prog, rfl⟩

end Sys2Proof.Machine
